-- ==== Sys2Proof/Word.lean ====
section
/-! DEFINITION. The words the engine handles and the small closed sets its operands are drawn from. -/

namespace Sys2Proof

/-- One byte of PF or of a plane (10_state R24, R26). -/
abbrev Byte := BitVec 8

/-- One 32-bit word: a command, a register, a word of a line transfer (R91, R37, R63). -/
abbrev Word := BitVec 32

/-- A slot of the four-slot cycle, and the plane it scans out (R15). -/
abbrev Slot := BitVec 2

/-- A half of a plane, with the line-transfer channel and the serializer lane that serve it (R16). -/
inductive Half where
  | half0
  | half1
deriving DecidableEq, Repr, Inhabited

/-- The widths of a PF window access: 1, 2 or 4 bytes (R67). -/
inductive Width where
  | w1
  | w2
  | w4
deriving DecidableEq, Repr, Inhabited

/-- How many bytes an access of this width moves. -/
def Width.bytes : Width → Nat
  | .w1 => 1
  | .w2 => 2
  | .w4 => 4

/-- Where a pixel's field stands inside its byte: the values of PF_PIX_ORDER and SF_BIT_ORDER (R6, R11). -/
inductive PixOrder where
  | lsb0
  | msb0
deriving DecidableEq, Repr, Inhabited

end Sys2Proof
end

