-- ==== Sys2Proof/Config.lean ====
section
/-! DEFINITION. What is fixed before reset (the configuration record), what the HOST and the scheduler put in, and
the free values: what the spec leaves open and nothing in the model decides. -/

namespace Sys2Proof

/-- The configuration (R6): constants fixed before reset and never changed while the block runs. The parameters that
R6 ties to these by an equation (strides, sizes, halves) are the functions of Machine/Params.lean. -/
structure Config where
  /-- `W`, panel width in pixels. -/
  width : Nat
  /-- `H`, panel height in pixels. -/
  height : Nat
  /-- `LINES_PER_REFRESH`. -/
  linesPerRefresh : Nat
  /-- `WORDS_PER_LINE`. -/
  wordsPerLine : Nat
  /-- `PIXEL_CLOCK_HZ`: timing only, no rule reads it (R6, R226). -/
  pixelClockHz : Nat
  /-- `PF_PIX_ORDER`. -/
  pfPixOrder : PixOrder
  /-- `SF_BIT_ORDER`. -/
  sfBitOrder : PixOrder
  /-- `REG_BASE`. -/
  regBase : Nat
  /-- The size of the register block in bytes, which R62 leaves to the platform beyond 0x0C (DEDUCED, safe, log 8). -/
  regAperture : Nat
  /-- `PF_WIN_BASE`. -/
  pfWinBase : Nat
deriving DecidableEq, Repr

/-- The test configuration `T32x4` (R7). Pixel clock, bases and aperture are not in R7: DESIGN CHOICE, unsafe, log 1. -/
def Config.t32x4 : Config :=
  { width := 32, height := 4, linesPerRefresh := 2, wordsPerLine := 1, pixelClockHz := 0,
    pfPixOrder := .lsb0, sfBitOrder := .lsb0, regBase := 0, regAperture := 16, pfWinBase := 4096 }

/-- The test configuration `T10x4` (R7), which has pad pixels; bases and aperture as in `Config.t32x4` (log 1). -/
def Config.t10x4 : Config :=
  { Config.t32x4 with width := 10, linesPerRefresh := 1 }

/-- One access of the HOST's bus: an address, a width in bytes and, for a write, the data (low bytes used). -/
inductive BusAccess where
  | read (addr width : Nat)
  | write (addr width : Nat) (data : Word)
deriving DecidableEq, Repr, Inhabited

/-- One item of the HOST's activity: a bus access, or the busy-wait WAITSWAP, which the HOST repeats until it ends
(R103, R193). -/
inductive HostItem where
  | access (b : BusAccess)
  | waitSwap
deriving DecidableEq, Repr, Inhabited

/-- Whose step comes next (R13, R70). The ENC agent's turn carries the choice R146 leaves open. `reset` is the
platform's reset input (R240). -/
inductive Turn where
  | host
  | encStep (k : Slot) (a : Nat)
  | encDone
  | xfer (h : Half)
  | refDone
  | tick
  | reset
deriving DecidableEq, Repr, Inhabited

/-- The two kinds of memory byte that have no reset value (R42). -/
inductive Space where
  | pf
  | plane (k : Slot)
deriving DecidableEq, Repr

/-- FREE VALUE (R42, U8, D23; safe, log 2): what a byte holds that nothing has written since the reset numbered
`draw`. Nothing constrains it. -/
opaque Config.powerOnByte (draw : Nat) (m : Space) (offset : Nat) : Byte

/-- FREE VALUE (R70, U12; safe, log 3): the turn taken when the state lists none. Nothing constrains it. -/
opaque Config.freeTurn (turnNo : Nat) : Turn

/-- FREE VALUE (R41, R70; safe, log 4): what the HOST does when the state lists nothing. Nothing constrains it. -/
opaque Config.freeItem (hostNo : Nat) : HostItem

end Sys2Proof
end

