-- ==== Sys2Proof/Machine/Params.lean ====
section
/-! DEFINITION. The derived parameters of R6 and the constraints a configuration must meet. -/

namespace Sys2Proof

/-- `PF_STRIDE` = ceil(W/4) (R6). -/
def Config.pfStride (c : Config) : Nat := (c.width + 3) / 4

/-- `SF_STRIDE` = ceil(W/8) (R6). -/
def Config.sfStride (c : Config) : Nat := (c.width + 7) / 8

/-- `PF_BYTES` (R6). -/
def Config.pfBytes (c : Config) : Nat := c.pfStride * c.height

/-- `PLANE_BYTES` (R6). -/
def Config.planeBytes (c : Config) : Nat := c.sfStride * c.height

/-- `HALF_BYTES` (R6). -/
def Config.halfBytes (c : Config) : Nat := c.planeBytes / 2

/-- `HALF_WORDS` (R6). -/
def Config.halfWords (c : Config) : Nat := c.halfBytes / 4

/-- Where a half of a plane begins (R161). -/
def Config.halfStart (c : Config) : Half → Nat
  | .half0 => 0
  | .half1 => c.halfBytes

/-- The operands of a PF window access: aligned, and wholly inside PF (R67, R124). -/
abbrev Config.windowOk (c : Config) (n : Width) (a : Nat) : Prop :=
  a % n.bytes = 0 ∧ a + n.bytes ≤ c.pfBytes

/-- The register block and the PF window do not overlap (R62). -/
abbrev Config.rangesDisjoint (c : Config) : Prop :=
  c.regBase + c.regAperture ≤ c.pfWinBase ∨ c.pfWinBase + c.pfBytes ≤ c.regBase

/-- The constraints of R6, with those of R62 on the host's address ranges. A configuration that breaks one is
ill-formed and the model refuses it (R6, R258). -/
abbrev Config.Ok (c : Config) : Prop :=
  (1 ≤ c.width ∧ c.width ≤ 2047) ∧ (1 ≤ c.height ∧ c.height ≤ 2047) ∧
  c.planeBytes % 8 = 0 ∧
  (1 ≤ c.linesPerRefresh ∧ 1 ≤ c.wordsPerLine ∧ c.linesPerRefresh * c.wordsPerLine = c.halfWords) ∧
  12 ≤ c.regAperture ∧ c.rangesDisjoint

end Sys2Proof
end

