-- ==== Sys2Proof/Syntax.lean ====
section
/-! DEFINITION. The operations of the engine: one constructor for each row of spec/opcode_table.json. -/

namespace Sys2Proof

/-- An operation (R90): a host command, a host access, or an internal step of an agent. Coordinates, levels and
payloads are the fields as encoded (R91); the meanings read them as R93 says. -/
inductive Instr where
  /-- `SETPIX x, y, level` (R121). -/
  | setpix (x y : BitVec 12) (level : BitVec 4)
  /-- `GETPIX x, y` (R122). -/
  | getpix (x y : BitVec 12)
  /-- `CLEAR level` (R123). -/
  | clear (level : BitVec 4)
  /-- `ENCODE` (R145). -/
  | encode
  /-- `SWAPREQ` (R190). -/
  | swapreq
  /-- `UPDSWAP` (R191). -/
  | updswap
  /-- `START` (R165). -/
  | start
  /-- A command word with `OP` = 0x0; the other 28 bits (R96). -/
  | reserved0 (payload : BitVec 28)
  /-- A command word with `OP` = 0x8 to 0xF, that is bit 31 set; the other 31 bits (R96). -/
  | reserved8F (payload : BitVec 31)
  /-- `RDSTATUS` (R192). -/
  | rdstatus
  /-- `RDPIXDATA` (R126). -/
  | rdpixdata
  /-- `PFRD.n a` (R124): width and PF offset. -/
  | pfrd (n : Width) (a : Nat)
  /-- `PFWR.n a, v` (R125): width, PF offset and value. -/
  | pfwr (n : Width) (a : Nat) (v : Word)
  /-- `ENCSTEP` (R146), with the member (plane, offset) of `ENC.todo` that this step chooses. -/
  | encstep (k : Slot) (a : Nat)
  /-- `ENCDONE` (R147). -/
  | encdone
  /-- `XFER` (R166) of the channel that serves this half. -/
  | xfer (h : Half)
  /-- `REFDONE` (R167). -/
  | refdone
  /-- `TICK` (R168). -/
  | tick
deriving DecidableEq, Repr

end Sys2Proof
end

