-- ==== Sys2Proof/WellFormed.lean ====
section
/-! DEFINITION. Which operations are well formed, whatever the configuration and the state. -/

namespace Sys2Proof

/-- The operand checks that need no configuration: a PF window access is naturally aligned (R67, R124), and the value of
a PF window write has no bits beyond its n bytes (R125). Every other operand is a bit field, right by its type. -/
def Instr.wellFormed : Instr → Bool
  | .pfrd n a => decide (a % n.bytes = 0)
  | .pfwr n a v => decide (a % n.bytes = 0) && decide (v.toNat < 2 ^ (8 * n.bytes))
  | .setpix _ _ _ => true
  | .getpix _ _ => true
  | .clear _ => true
  | .encode => true
  | .swapreq => true
  | .updswap => true
  | .start => true
  | .reserved0 _ => true
  | .reserved8F _ => true
  | .rdstatus => true
  | .rdpixdata => true
  | .encstep _ _ => true
  | .encdone => true
  | .xfer _ => true
  | .refdone => true
  | .tick => true

end Sys2Proof
end

