-- ==== Sys2Proof/Decode.lean ====
section
/-! DEFINITION. Decoding: a command word to its operation, a bus access to what it selects; and the encoders. -/

namespace Sys2Proof

/-- Decode a command word (R91 to R97): `OP` selects the row, reserved fields are ignored, and the reserved opcodes are
rows of their own. Total on the 2^32 words. -/
def decodeCommand (w : Word) : Instr :=
  match (w.extractLsb' 28 4).toNat with
  | 0 => .reserved0 (w.extractLsb' 0 28)
  | 1 => .setpix (w.extractLsb' 0 12) (w.extractLsb' 12 12) (w.extractLsb' 24 4)
  | 2 => .getpix (w.extractLsb' 0 12) (w.extractLsb' 12 12)
  | 3 => .clear (w.extractLsb' 24 4)
  | 4 => .encode
  | 5 => .swapreq
  | 6 => .updswap
  | 7 => .start
  | _ => .reserved8F (w.extractLsb' 0 31)

/-- What a bus access selects (R99). -/
inductive Selected where
  /-- An operation of the table. -/
  | op (i : Instr)
  /-- A read of CMD: answers 0, no effect (R37, R99). -/
  | readCmd
  /-- A write of STATUS or PIXDATA: ignored (R38, R39, R99). -/
  | ignoredWrite
  /-- An access to which the spec gives no meaning: the model refuses it, BadAccess (R40, R66, R67, U6). -/
  | bad
deriving DecidableEq, Repr

/-- The width of a PF window access, or none for a width that is not 1, 2 or 4 (R67). -/
def widthOfBytes : Nat → Option Width
  | 1 => some .w1
  | 2 => some .w2
  | 4 => some .w4
  | _ => none

/-- An address lies in the register block (R60, R62). -/
abbrev Config.inRegs (c : Config) (addr : Nat) : Prop :=
  c.regBase ≤ addr ∧ addr < c.regBase + c.regAperture

/-- An address lies in the PF window (R60). -/
abbrev Config.inWindow (c : Config) (addr : Nat) : Prop :=
  c.pfWinBase ≤ addr ∧ addr < c.pfWinBase + c.pfBytes

/-- A register is reached only by an aligned 32-bit access (R66). -/
abbrev regAccess (addr width : Nat) : Prop := width = 4 ∧ addr % 4 = 0

/-- A read of the register at this offset (R37 to R40, R99). -/
def selectRegRead : Nat → Selected
  | 0 => .readCmd
  | 4 => .op .rdstatus
  | 8 => .op .rdpixdata
  | _ => .bad

/-- A write of the register at this offset (R37 to R40, R99). -/
def selectRegWrite (data : Word) : Nat → Selected
  | 0 => .op (decodeCommand data)
  | 4 => .ignoredWrite
  | 8 => .ignoredWrite
  | _ => .bad

/-- A PF window access of `width` bytes at `addr`, which lies in the window: the operation it selects, if the address and
the PF offset are multiples of the width and the access lies wholly inside the window (R67, R124; log 7). -/
def selectWindow (c : Config) (addr width : Nat) (op : Width → Nat → Instr) : Selected :=
  match widthOfBytes width with
  | some n =>
    if addr % width = 0 ∧ c.windowOk n (addr - c.pfWinBase) then .op (op n (addr - c.pfWinBase)) else .bad
  | none => .bad

/-- Decode a bus access by its address, width and direction (R99). -/
def decodeAccess (c : Config) : BusAccess → Selected
  | .read addr width =>
    if c.inRegs addr then
      if regAccess addr width then selectRegRead (addr - c.regBase) else .bad
    else if c.inWindow addr then selectWindow c addr width .pfrd
    else .bad
  | .write addr width data =>
    if c.inRegs addr then
      if regAccess addr width then selectRegWrite data (addr - c.regBase) else .bad
    else if c.inWindow addr then
      selectWindow c addr width fun n a => .pfwr n a (data &&& BitVec.ofNat 32 (2 ^ (8 * n.bytes) - 1))
    else .bad

/-- A command word from its four fields (R91, R102). -/
def commandWord (op level : BitVec 4) (y x : BitVec 12) : Word := op ++ level ++ y ++ x

/-- The command word of an operation, reserved fields 0 (R92, R94, R97, R102); none for an operation without one. -/
def encode : Instr → Option Word
  | .setpix x y level => some (commandWord 1 level y x)
  | .getpix x y => some (commandWord 2 0 y x)
  | .clear level => some (commandWord 3 level 0 0)
  | .encode => some (commandWord 4 0 0 0)
  | .swapreq => some (commandWord 5 0 0 0)
  | .updswap => some (commandWord 6 0 0 0)
  | .start => some (commandWord 7 0 0 0)
  | .reserved0 payload => some (0#4 ++ payload)
  | .reserved8F payload => some (1#1 ++ payload)
  | .rdstatus => none
  | .rdpixdata => none
  | .pfrd _ _ => none
  | .pfwr _ _ _ => none
  | .encstep _ _ => none
  | .encdone => none
  | .xfer _ => none
  | .refdone => none
  | .tick => none

/-- The bus access by which the HOST issues an operation (R99); none for an internal step (R100). -/
def encodeAccess (c : Config) (i : Instr) : Option BusAccess :=
  match i with
  | .rdstatus => some (.read (c.regBase + 4) 4)
  | .rdpixdata => some (.read (c.regBase + 8) 4)
  | .pfrd n a => some (.read (c.pfWinBase + a) n.bytes)
  | .pfwr n a v => some (.write (c.pfWinBase + a) n.bytes v)
  | i => (encode i).map (.write c.regBase 4)

/-- The opcode-table word the host asks about: bit 0 is the least significant bit of the command word, bits from `nbits`
up are 0. A command word is 32 bits (R91), so a longer one is none of ours, and no bits are no word. -/
def decodeTableWord (nbits w : Nat) : Option Instr :=
  if nbits = 0 ∨ 32 < nbits then none else some (decodeCommand (BitVec.ofNat 32 (w % 2 ^ nbits)))

/-- The HOST item that issues a command: a 32-bit write of CMD (R91, R99). -/
def commandItem (c : Config) (w : Word) : HostItem := .access (.write c.regBase 4 w)

/-- `UPDATE` (R103): ENCODE. -/
def pseudoUpdate (c : Config) : List HostItem := [commandItem c (commandWord 4 0 0 0)]

/-- `SWAP` (R103): SWAPREQ, then WAITSWAP. -/
def pseudoSwap (c : Config) : List HostItem := [commandItem c (commandWord 5 0 0 0), .waitSwap]

/-- `UPDATE_AND_SWAP` (R103): UPDSWAP, then WAITSWAP, which begins when UPDSWAP is complete (R95; log 17). -/
def pseudoUpdateAndSwap (c : Config) : List HostItem := [commandItem c (commandWord 6 0 0 0), .waitSwap]

/-- `GETPIXEL x, y` (R103): GETPIX, then RDPIXDATA. -/
def pseudoGetPixel (c : Config) (x y : BitVec 12) : List HostItem :=
  [commandItem c (commandWord 2 0 y x), .access (.read (c.regBase + 8) 4)]

/-- `GETFRAMEPTR` (R103, R61): the constant PF_WIN_BASE; no access. -/
def pseudoGetFramePtr (c : Config) : Nat := c.pfWinBase

end Sys2Proof
end

