-- ==== Sys2Proof/Machine/State.lean ====
section
/-! DEFINITION. The state of the engine (10_state R20), the outcomes it can end in, and the state after reset. -/

namespace Sys2Proof.Machine

/-- A byte memory: (offset, byte) pairs, offsets strictly rising. An unlisted offset holds no written value. -/
abbrev Memory := List Host.Cell

/-- The Sub-frame Store (R26): four planes with no common address space. -/
structure Planes where
  p0 : Memory
  p1 : Memory
  p2 : Memory
  p3 : Memory
deriving DecidableEq, Repr

/-- CYC (R28, R29): the slot being scanned out, and the swap request flag. -/
structure Cycle where
  index : Slot
  swapPending : Bool
deriving DecidableEq, Repr

/-- SCN (R30, R31): scanout started, and the refresh-complete interrupt latched. -/
structure Scan where
  run : Bool
  irqPending : Bool
deriving DecidableEq, Repr

/-- A line-transfer channel (R32). -/
structure Channel where
  en : Bool
  plane : Slot
  rdOff : Nat
  remaining : Nat
deriving DecidableEq, Repr

/-- A serializer lane's control state and the words it received since it was last cleared (R33). -/
structure Lane where
  en : Bool
  lines : Nat
  words : Nat
  rx : List Word
deriving DecidableEq, Repr

/-- The encoder (R34). `todo` is a set, held as a list with no repeats in plane-major rising order (DESIGN CHOICE, safe,
log 11). -/
structure Encoder where
  busy : Bool
  thenSwap : Bool
  todo : List (Slot × Nat)
deriving DecidableEq, Repr

/-- A record of the display history (R36). -/
structure Displayed where
  index : Slot
  rx0 : List Word
  rx1 : List Word
deriving DecidableEq, Repr

/-- Why the machine stops with a fault. -/
inductive Fault where
  /-- `SwapOverlap` (R213, R194, U1): raised by ENCODE, UPDSWAP and SWAPREQ accepted with the swap flag set. The spec calls
  the behaviour undefined. The step of the HOST's that meets it records it, and from then on every step but a reset answers
  it (log 10). Safe. -/
  | swapOverlap
  /-- A channel read or an encoder write outside its memory (R10). Raised by XFER and ENCSTEP in states no run reaches
  (R65, R34). Safe (log 12). -/
  | outsideMemory
deriving DecidableEq, Repr

/-- The state: the fields of R20, then the model's own (`cfg` and from `draw` on), which the log names. -/
structure State where
  /-- The configuration (R6): no step changes it (log 1). -/
  cfg : Config
  /-- The Packed Grayscale Framebuffer (R24). -/
  pf : Memory
  /-- The Sub-frame Store (R26). -/
  sf : Planes
  cyc : Cycle
  scn : Scan
  ch0 : Channel
  ch1 : Channel
  ln0 : Lane
  ln1 : Lane
  enc : Encoder
  /-- `HOST.pixdata` (R35). -/
  pixdata : Slot
  /-- `OUT` (R36). -/
  out : List Displayed
  /-- Which power-on draw the unwritten bytes hold (log 2). -/
  draw : Nat
  /-- The recorded model fault, sticky until reset (R43, R194, R240, U1; log 10). -/
  fault : Option Fault
  /-- The data answered on the HOST's last read (log 6). -/
  rdata : Word
  /-- What the HOST still performs, first next (log 4). -/
  prog : List HostItem
  /-- How many host items have completed (log 4). -/
  hostNo : Nat
  /-- The turns still to be taken, first next (log 3). -/
  turns : List Turn
  /-- How many turns have been taken (log 3). -/
  turnNo : Nat
deriving DecidableEq, Repr

/-- Why the model does not accept a step. -/
inductive Refusal where
  /-- The arm of `exec` has no meaning yet; no arm raises it. Safe. -/
  | notModelled (mnemonic : String)
  /-- A reserved opcode (R96, U5), raised by RESERVED_0 and RESERVED_8_F. Safe. -/
  | reservedOpcode
  /-- A host access to which the spec gives no meaning (R40, R66, R67, U6), raised by the HOST's turn, PFRD and PFWR.
  Safe. -/
  | badAccess
  /-- The configuration breaks a constraint of R6 or R62, raised by every step. Safe. -/
  | illFormedConfig
deriving DecidableEq, Repr

/-- The answer of one operation. -/
abbrev Answer := Host.Outcome State Fault Refusal

/-- The state after reset in a configuration (R42, R240): control state 0 or empty, nothing written in PF and SF, which
hold the contents of the given draw, and no fault recorded (R240). The model's own fields: DESIGN CHOICE (logs 2, 3, 4,
6). -/
def State.resetWith (cfg : Config) (draw : Nat) : State :=
  { cfg := cfg
    pf := []
    sf := { p0 := [], p1 := [], p2 := [], p3 := [] }
    cyc := { index := 0, swapPending := false }
    scn := { run := false, irqPending := false }
    ch0 := { en := false, plane := 0, rdOff := 0, remaining := 0 }
    ch1 := { en := false, plane := 0, rdOff := 0, remaining := 0 }
    ln0 := { en := false, lines := 0, words := 0, rx := [] }
    ln1 := { en := false, lines := 0, words := 0, rx := [] }
    enc := { busy := false, thenSwap := false, todo := [] }
    pixdata := 0
    out := []
    draw := draw
    fault := none
    rdata := 0
    prog := []
    hostNo := 0
    turns := []
    turnNo := 0 }

/-- The machine right after reset, in the test configuration T32x4 of R7 (DESIGN CHOICE, unsafe, log 1). -/
def State.reset : State := State.resetWith Config.t32x4 0

end Sys2Proof.Machine
end

