-- ==== Sys2Proof/Machine/Ops.lean ====
section
/-! DEFINITION. The named operations over memory and control state that the meanings share. The interrupt has no entry or
return beside TICK (R218, R219): what TICK and START share is `State.arm`. -/

namespace Sys2Proof.Machine

/-! ### Byte memories -/

/-- The written byte at an offset, if any. -/
def Memory.read : Memory → Nat → Option Byte
  | [], _ => none
  | (a, b) :: rest, x => if x = a then some b else Memory.read rest x

/-- Write one byte, keeping the offsets strictly rising. -/
def Memory.write : Memory → Nat → Byte → Memory
  | [], x, v => [(x, v)]
  | (a, b) :: rest, x, v =>
    if x < a then (x, v) :: (a, b) :: rest
    else if x = a then (x, v) :: rest
    else (a, b) :: Memory.write rest x v

/-- The canonical form: offsets strictly rising. An unlisted offset reads as no written value, which no entry equals. -/
abbrev Memory.wf (m : Memory) : Prop := m.Pairwise fun p q => p.1 < q.1

/-- Every listed offset is below a memory's size. -/
abbrev Memory.within (m : Memory) (size : Nat) : Prop := ∀ p ∈ m, p.1 < size

/-- `MemWrite` of n bytes, little-endian (R10, R64). -/
def Memory.writeLE : Memory → Nat → Nat → Word → Memory
  | m, _, 0, _ => m
  | m, a, n + 1, v => Memory.writeLE (Memory.write m a (v.setWidth 8)) (a + 1) n (v >>> 8)

/-- Write one byte value to every offset below `size` (R123). -/
def Memory.fill (m : Memory) (size : Nat) (v : Byte) : Memory :=
  (List.range size).foldl (fun m a => Memory.write m a v) m

/-- `MemRead` of n bytes, little-endian: byte i is bits 8i+7 to 8i, bits beyond the n bytes are 0 (R10, R63, R64). -/
def readLE (byteAt : Nat → Byte) : Nat → Nat → Word
  | _, 0 => 0
  | a, n + 1 => (byteAt a).setWidth 32 ||| (readLE byteAt (a + 1) n <<< 8)

/-- Plane k of the Sub-frame Store. -/
def Planes.get (p : Planes) (k : Slot) : Memory :=
  if k = 0 then p.p0 else if k = 1 then p.p1 else if k = 2 then p.p2 else p.p3

/-- Replace plane k. -/
def Planes.set (p : Planes) (k : Slot) (m : Memory) : Planes :=
  if k = 0 then { p with p0 := m }
  else if k = 1 then { p with p1 := m }
  else if k = 2 then { p with p2 := m }
  else { p with p3 := m }

/-- The byte PF holds at an offset: the one written last, else the power-on byte of this reset (R42, U8). -/
def State.pfByte (s : State) (a : Nat) : Byte :=
  (Memory.read s.pf a).getD (Config.powerOnByte s.draw .pf a)

/-- The byte plane k holds at an offset (R42, U8). -/
def State.sfByte (s : State) (k : Slot) (a : Nat) : Byte :=
  (Memory.read (s.sf.get k) a).getD (Config.powerOnByte s.draw (.plane k) a)

/-- Write one byte of plane k. -/
def State.writeSf (s : State) (k : Slot) (a : Nat) (v : Byte) : State :=
  { s with sf := s.sf.set k (Memory.write (s.sf.get k) a v) }

/-! ### Channels and lanes by half -/

/-- The line-transfer channel that serves a half (R161). -/
def State.ch (s : State) : Half → Channel
  | .half0 => s.ch0
  | .half1 => s.ch1

/-- The serializer lane that serves a half (R161). -/
def State.ln (s : State) : Half → Lane
  | .half0 => s.ln0
  | .half1 => s.ln1

/-- Replace the channel of a half. -/
def State.setCh (s : State) (h : Half) (c : Channel) : State :=
  match h with
  | .half0 => { s with ch0 := c }
  | .half1 => { s with ch1 := c }

/-- Replace the lane of a half. -/
def State.setLn (s : State) (h : Half) (l : Lane) : State :=
  match h with
  | .half0 => { s with ln0 := l }
  | .half1 => { s with ln1 := l }

/-- A channel armed on a half of plane i (R163 steps 2 and 4). -/
def Channel.armed (c : Config) (i : Slot) (h : Half) : Channel :=
  { en := true, plane := i, rdOff := c.halfStart h, remaining := c.halfWords }

/-- A lane cleared, restarted and resumed (R163 steps 3 and 4). -/
def Lane.armed (c : Config) : Lane :=
  { en := true, lines := c.linesPerRefresh, words := c.wordsPerLine, rx := [] }

/-- The arming procedure `arm(i)` (R163): both channels and both lanes, in one step (R169). -/
def State.arm (s : State) (i : Slot) : State :=
  { s with
    ch0 := Channel.armed s.cfg i .half0
    ch1 := Channel.armed s.cfg i .half1
    ln0 := Lane.armed s.cfg
    ln1 := Lane.armed s.cfg }

/-! ### The HOST's side -/

/-- What the HOST performs next. -/
def State.item (s : State) : HostItem := s.prog.headD (Config.freeItem s.hostNo)

/-- The HOST's access completes: its next item stands first (R95: in the order it wrote them). -/
def State.accept (s : State) : State :=
  { s with prog := s.prog.tail, hostNo := s.hostNo + 1 }

/-- A HOST read completes with this data. -/
def State.answer (s : State) (v : Word) : State := { s.accept with rdata := v }

/-- The HOST's command is accepted and meets a fault, which the model records (R194, R213): nothing else changes, since
nothing but a reset follows (log 10). -/
def State.recordFault (s : State) (r : Fault) : State := { s.accept with fault := some r }

/-! ### The encoder's work set -/

/-- The set of all plane bytes (R145), plane-major and rising. -/
def fullTodo (c : Config) : List (Slot × Nat) :=
  [0, 1, 2, 3].flatMap fun k => (List.range c.planeBytes).map fun a => (k, a)

/-- Accept ENCODE or UPDSWAP (R145, R191): they differ only in `then_swap`. Held while a run is in progress (R95);
`fault SwapOverlap` while a swap is pending (R194, R213). -/
def State.startRun (s : State) (thenSwap : Bool) : Answer :=
  if s.enc.busy then .next s
  else if s.cyc.swapPending then .fault .swapOverlap
  else .next { s.accept with enc := { busy := true, thenSwap := thenSwap, todo := fullTodo s.cfg } }

/-! ### Turns and reset -/

/-- Whose step comes next. -/
def State.turn (s : State) : Turn := s.turns.headD (Config.freeTurn s.turnNo)

/-- The turn is taken. -/
def State.endTurn (s : State) : State :=
  { s with turns := s.turns.tail, turnNo := s.turnNo + 1 }

/-- The reset step (R240, R241): every field of the block takes its reset value, PF and SF a new draw, and a recorded fault
is cleared; the HOST and the scheduler are outside the block and keep theirs (log 9). -/
def State.powerOn (s : State) : State :=
  { State.resetWith s.cfg (s.draw + 1) with
    rdata := s.rdata, prog := s.prog, hostNo := s.hostNo, turns := s.turns, turnNo := s.turnNo }

end Sys2Proof.Machine
end

