-- ==== Sys2Proof/Machine/Flags.lean ====
section
/-! DEFINITION. The flags' only computed view, the STATUS and PIXDATA registers, and the enabling conditions that read
the flags. The engine has no arithmetic condition codes (R23). -/

namespace Sys2Proof.Machine

/-- The STATUS register (R38, R192). -/
def State.status (s : State) : Word :=
  0#26 ++ BitVec.ofBool s.scn.irqPending ++ BitVec.ofBool s.scn.run ++ BitVec.ofBool s.enc.busy
    ++ BitVec.ofBool s.cyc.swapPending ++ s.cyc.index

/-- The PIXDATA register (R39, R126). -/
def State.pixdataReg (s : State) : Word := s.pixdata.setWidth 32

/-- ENCSTEP may write plane byte (k, a) (R146). -/
abbrev State.encStepEnabled (s : State) (k : Slot) (a : Nat) : Prop :=
  s.enc.busy = true ∧ (k, a) ∈ s.enc.todo

/-- ENCDONE is enabled (R147). -/
abbrev State.encDoneEnabled (s : State) : Prop := s.enc.busy = true ∧ s.enc.todo = []

/-- XFER of a channel is enabled (R166). -/
abbrev State.xferEnabled (s : State) (h : Half) : Prop :=
  s.scn.run = true ∧ (s.ch h).en = true ∧ 0 < (s.ch h).remaining ∧ (s.ln h).en = true

/-- REFDONE is enabled (R167). -/
abbrev State.refDoneEnabled (s : State) : Prop :=
  s.scn.run = true ∧ s.scn.irqPending = false ∧ s.ch0.remaining = 0 ∧ s.ch1.remaining = 0

/-- TICK is enabled (R168): no producer state is read (R199). -/
abbrev State.tickEnabled (s : State) : Prop := s.scn.run = true ∧ s.scn.irqPending = true

/-- The wrap: a TICK that takes the index from 3 to 0 with a swap pending clears the flag; any other leaves it (R168
step 5). -/
def swapAfterTick (next : Slot) (pending : Bool) : Bool :=
  if next = 0 ∧ pending = true then false else pending

end Sys2Proof.Machine
end

