-- ==== Sys2Proof/Machine/Operands.lean ====
section
/-! DEFINITION. Operands and the computations on them: coordinates, levels, pixel positions, the dither function. -/

namespace Sys2Proof

/-- `min(level, 3)` of the unsigned level operand (R93, R121, R127). -/
def clampLevel (level : BitVec 4) : Slot := BitVec.ofNat 2 (min level.toNat 3)

/-- `pf_shift(m)`, m = x mod 4 (R11). -/
def Config.pfShift (c : Config) (m : Nat) : Nat :=
  match c.pfPixOrder with
  | .lsb0 => 2 * m
  | .msb0 => 6 - 2 * m

/-- `sf_bitpos(j)`, j = x mod 8 (R11). -/
def Config.sfBitPos (c : Config) (j : Nat) : Nat :=
  match c.sfBitOrder with
  | .lsb0 => j
  | .msb0 => 7 - j

/-- `pf_addr(x, y)` (R11). -/
def Config.pfAddr (c : Config) (x y : Nat) : Nat := y * c.pfStride + x / 4

/-- `sf_addr(x, y)` (R11). -/
def Config.sfAddr (c : Config) (x y : Nat) : Nat := y * c.sfStride + x / 8

/-- The bounds test of SETPIX and GETPIX on the signed coordinates (R121, R122, R127). -/
abbrev Config.inBounds (c : Config) (x y : Int) : Prop :=
  0 ≤ x ∧ x < c.width ∧ 0 ≤ y ∧ y < c.height

/-- Replace the 2-bit field of a byte at a shift (R121). -/
def putField (b : Byte) (shift : Nat) (v : Slot) : Byte :=
  (b &&& ~~~(3#8 <<< shift)) ||| (v.setWidth 8 <<< shift)

/-- Read the 2-bit field of a byte at a shift (R11). -/
def getField (b : Byte) (shift : Nat) : Slot := b.extractLsb' shift 2

/-- The fill byte of CLEAR: four fields of one value (R123). -/
def fillByte (v : Slot) : Byte := v ++ v ++ v ++ v

/-- The dither function `lit(L, k, x, y)` (R141). -/
def lit (level k : Slot) (x y : Nat) : Bool :=
  match level.toNat with
  | 0 => false
  | 1 => decide (k.toNat = (x + y) % 4)
  | 2 => decide (k = 0 ∨ k = 2)
  | _ => true

namespace Machine

/-- `PFpix(x, y)` (R11). -/
def State.pfPix (s : State) (x y : Nat) : Slot :=
  getField (s.pfByte (s.cfg.pfAddr x y)) (s.cfg.pfShift (x % 4))

/-- `SFbit(k, x, y)` (R11). -/
def State.sfBit (s : State) (k : Slot) (x y : Nat) : Bool :=
  (s.sfByte k (s.cfg.sfAddr x y)).getLsbD (s.cfg.sfBitPos (x % 8))

/-- `bit(j)` of R142: what the encoder puts for column x of row y, a pad bit being 0. -/
def State.encBit (s : State) (k : Slot) (x y : Nat) : Bool :=
  if x < s.cfg.width then lit (s.pfPix x y) k x y else false

/-- `enc_byte(k, a)` (R142): the plane byte the encoder stores, a function of PF alone. The eight terms of the sum have
distinct bit positions, so the sum is their union. -/
def State.encByte (s : State) (k : Slot) (a : Nat) : Byte :=
  let y := a / s.cfg.sfStride
  let c := a % s.cfg.sfStride
  (List.range 8).foldl
    (fun acc j => acc ||| ((BitVec.ofBool (s.encBit k (8 * c + j) y)).setWidth 8 <<< s.cfg.sfBitPos j)) 0

end Machine

end Sys2Proof
end

