-- ==== Sys2Proof/Machine/Encoder.lean ====
section
/-! DEFINITION. The dither encoder's operations (41_dither_encoder). An internal step that is not enabled is not taken:
its meaning then changes nothing (log 5). -/

namespace Sys2Proof.Machine

/-- ENCODE (R145). -/
def execEncode (s : State) : Answer := s.startRun false

/-- ENCSTEP (R146) of the chosen member (k, a) of the work set. -/
def execEncstep (k : Slot) (a : Nat) (s : State) : Answer :=
  if s.encStepEnabled k a then
    if a < s.cfg.planeBytes then
      .next { s.writeSf k a (s.encByte k a) with enc := { s.enc with todo := s.enc.todo.filter (· ≠ (k, a)) } }
    else .fault .outsideMemory
  else .next s

/-- ENCDONE (R147): the three writes are one atomic step. -/
def execEncdone (s : State) : Answer :=
  if s.encDoneEnabled then
    .next { s with
      cyc := { s.cyc with swapPending := s.enc.thenSwap || s.cyc.swapPending }
      enc := { s.enc with busy := false, thenSwap := false } }
  else .next s

end Sys2Proof.Machine
end

