-- ==== Sys2Proof/Machine/Framebuffer.lean ====
section
/-! DEFINITION. The framebuffer operations (40_framebuffer_ops). Each is held while an encoder run is in progress (R95,
R120), but for RDPIXDATA; a held operation changes nothing and the HOST's item stays (log 5). A window access outside its
operand constraint is no PFRD or PFWR to hold: it is refused at once, also during a run (DESIGN CHOICE, log 7). -/

namespace Sys2Proof.Machine

/-- Put a level in the pixel field of PF at (x, y), which is in bounds (R121). -/
def State.setPixel (s : State) (x y : Nat) (v : Slot) : State :=
  let a := s.cfg.pfAddr x y
  { s with pf := Memory.write s.pf a (putField (s.pfByte a) (s.cfg.pfShift (x % 4)) v) }

/-- SETPIX (R121): the bounds test comes before the clamp, out of bounds is a no-op. -/
def execSetpix (x y : BitVec 12) (level : BitVec 4) (s : State) : Answer :=
  if s.enc.busy then .next s
  else if s.cfg.inBounds x.toInt y.toInt then
    .next (s.setPixel x.toInt.toNat y.toInt.toNat (clampLevel level)).accept
  else .next s.accept

/-- GETPIX (R122): out of bounds reads 0. -/
def execGetpix (x y : BitVec 12) (s : State) : Answer :=
  if s.enc.busy then .next s
  else if s.cfg.inBounds x.toInt y.toInt then
    .next { s.accept with pixdata := s.pfPix x.toInt.toNat y.toInt.toNat }
  else .next { s.accept with pixdata := 0 }

/-- CLEAR (R123): the fill is by byte, so pad pixels are written too. -/
def execClear (level : BitVec 4) (s : State) : Answer :=
  if s.enc.busy then .next s
  else .next { s.accept with pf := Memory.fill s.pf s.cfg.pfBytes (fillByte (clampLevel level)) }

/-- PFRD (R124, R67). -/
def execPfrd (n : Width) (a : Nat) (s : State) : Answer :=
  if s.cfg.windowOk n a then
    if s.enc.busy then .next s else .next (s.answer (readLE s.pfByte a n.bytes))
  else .refused .badAccess

/-- PFWR (R125, R67). -/
def execPfwr (n : Width) (a : Nat) (v : Word) (s : State) : Answer :=
  if s.cfg.windowOk n a then
    if s.enc.busy then .next s else .next { s.accept with pf := Memory.writeLE s.pf a n.bytes v }
  else .refused .badAccess

/-- RDPIXDATA (R126): never held. -/
def execRdpixdata (s : State) : Answer := .next (s.answer s.pixdataReg)

/-- A command word with `OP` 0x0 (R96): the model must refuse it (log 15). -/
def execReserved0 (_payload : BitVec 28) (_s : State) : Answer := .refused .reservedOpcode

/-- A command word with `OP` 0x8 to 0xF (R96): the model must refuse it (log 15). -/
def execReserved8F (_payload : BitVec 31) (_s : State) : Answer := .refused .reservedOpcode

end Sys2Proof.Machine
end

