-- ==== Sys2Proof/Machine/Scanout.lean ====
section
/-! DEFINITION. The scanout driver's operations (42_scanout). An internal step that is not enabled is not taken: its
meaning then changes nothing (log 5). -/

namespace Sys2Proof.Machine

/-- START (R165): ignored when the scanout already runs. -/
def execStart (s : State) : Answer :=
  if s.enc.busy then .next s
  else if s.scn.run then .next s.accept
  else .next { (s.accept.arm 0) with
    cyc := { s.cyc with index := 0 }
    scn := { s.scn with run := true } }

/-- The channel after it has moved one word (R166). -/
def Channel.advance (c : Channel) : Channel :=
  { c with
    rdOff := c.rdOff + 4
    remaining := c.remaining - 1
    en := if c.remaining - 1 = 0 then false else c.en }

/-- XFER (R166): one little-endian word of the channel's plane goes to its lane. -/
def execXfer (h : Half) (s : State) : Answer :=
  if s.xferEnabled h then
    let c := s.ch h
    let l := s.ln h
    if c.rdOff + 4 ≤ s.cfg.planeBytes then
      .next ((s.setLn h { l with rx := l.rx ++ [readLE (s.sfByte c.plane) c.rdOff 4] }).setCh h c.advance)
    else .fault .outsideMemory
  else .next s

/-- REFDONE (R167). -/
def execRefdone (s : State) : Answer :=
  if s.refDoneEnabled then
    .next { s with
      out := s.out ++ [{ index := s.cyc.index, rx0 := s.ln0.rx, rx1 := s.ln1.rx }]
      scn := { s.scn with irqPending := true } }
  else .next s

/-- TICK (R168): the service of the refresh-complete interrupt, one atomic step (R170). -/
def execTick (s : State) : Answer :=
  if s.tickEnabled then
    let i := s.cyc.index + 1
    .next { (s.arm i) with
      cyc := { index := i, swapPending := swapAfterTick i s.cyc.swapPending }
      scn := { s.scn with irqPending := false } }
  else .next s

end Sys2Proof.Machine
end

