-- ==== Sys2Proof/Machine/Swap.lean ====
section
/-! DEFINITION. The buffer-swap synchronizer's operations (43_swap). -/

namespace Sys2Proof.Machine

/-- SWAPREQ (R190). -/
def execSwapreq (s : State) : Answer :=
  if s.enc.busy then .next s
  else if s.cyc.swapPending then .fault .swapOverlap
  else .next { s.accept with cyc := { s.cyc with swapPending := true } }

/-- UPDSWAP (R191). -/
def execUpdswap (s : State) : Answer := s.startRun true

/-- RDSTATUS (R192): never held, all fields sampled in the one step. -/
def execRdstatus (s : State) : Answer := .next (s.answer s.status)

end Sys2Proof.Machine
end

