-- ==== Sys2Proof/Machine/Dispatch.lean ====
section
/-! DEFINITION. One arm per operation. -/

namespace Sys2Proof.Machine

def exec (i : Instr) (s : State) : Host.Outcome State Fault Refusal :=
  match i with
  | .setpix x y level => Sys2Proof.Machine.execSetpix x y level s
  | .getpix x y => Sys2Proof.Machine.execGetpix x y s
  | .clear level => Sys2Proof.Machine.execClear level s
  | .encode => Sys2Proof.Machine.execEncode s
  | .swapreq => Sys2Proof.Machine.execSwapreq s
  | .updswap => Sys2Proof.Machine.execUpdswap s
  | .start => Sys2Proof.Machine.execStart s
  | .reserved0 payload => Sys2Proof.Machine.execReserved0 payload s
  | .reserved8F payload => Sys2Proof.Machine.execReserved8F payload s
  | .rdstatus => Sys2Proof.Machine.execRdstatus s
  | .rdpixdata => Sys2Proof.Machine.execRdpixdata s
  | .pfrd n a => Sys2Proof.Machine.execPfrd n a s
  | .pfwr n a v => Sys2Proof.Machine.execPfwr n a v s
  | .encstep k a => Sys2Proof.Machine.execEncstep k a s
  | .encdone => Sys2Proof.Machine.execEncdone s
  | .xfer h => Sys2Proof.Machine.execXfer h s
  | .refdone => Sys2Proof.Machine.execRefdone s
  | .tick => Sys2Proof.Machine.execTick s

end Sys2Proof.Machine
end

