-- ==== Sys2Proof/Machine/Turns.lean ====
section
/-! DEFINITION. What each turn does: the HOST's bus accesses at the port, the agents' steps, the reset input. -/

namespace Sys2Proof.Machine

/-- The operations held at the port while an encoder run is in progress (R95): every command, PFRD and PFWR. -/
def heldAtPort : Instr → Bool
  | .setpix _ _ _ => true
  | .getpix _ _ => true
  | .clear _ => true
  | .encode => true
  | .swapreq => true
  | .updswap => true
  | .start => true
  | .reserved0 _ => true
  | .reserved8F _ => true
  | .rdstatus => false
  | .rdpixdata => false
  | .pfrd _ _ => true
  | .pfwr _ _ _ => true
  | .encstep _ _ => false
  | .encdone => false
  | .xfer _ => false
  | .refdone => false
  | .tick => false

/-- A fault that an operation of the HOST's meets is recorded, sticky until reset (R194, U1; log 10). -/
def recording (s : State) (a : Answer) : Answer :=
  match a with
  | .next t => .next t
  | .fault r => .next (s.recordFault r)
  | .refused r => .refused r

/-- The HOST's access (R99): a held operation waits at the port (R95); a read of CMD answers 0 and a write of STATUS or
PIXDATA is ignored (R37 to R39); an access with no meaning is refused (R40, R66, R67, U6). Only commands and PF window
accesses inside their constraint are held: the others are answered or refused at once, also during a run (DESIGN CHOICE,
log 7). -/
def runAccess (b : BusAccess) (s : State) : Answer :=
  match decodeAccess s.cfg b with
  | .op i => if heldAtPort i = true ∧ s.enc.busy = true then .next s else recording s (exec i s)
  | .readCmd => .next (s.answer 0)
  | .ignoredWrite => .next s.accept
  | .bad => .refused .badAccess

/-- The HOST's bus access for RDSTATUS (R99). -/
def statusAccess (c : Config) : BusAccess := .read (c.regBase + 4) 4

/-- One iteration of WAITSWAP (R103, R193): an RDSTATUS, by its own bus access, after which the item stays while bit 2 of
the answer is 1. The HOST begins WAITSWAP only when the command before it is complete, that is when no run is in progress
(R95, R197; DEDUCED, log 17); until then its turn changes nothing. Where REG_BASE is no multiple of 4 the access is refused
like any other of a register (log 18). -/
def runWaitSwap (s : State) : Answer :=
  if s.enc.busy then .next s
  else
    match runAccess (statusAccess s.cfg) s with
    | .next t => .next (if t.rdata.getLsbD 2 then { t with prog := s.prog, hostNo := s.hostNo } else t)
    | .fault r => .fault r
    | .refused r => .refused r

/-- The HOST's turn. -/
def runHost (s : State) : Answer :=
  match s.item with
  | .access b => runAccess b s
  | .waitSwap => runWaitSwap s

/-- One turn (R13, R70, R240). -/
def runTurn (t : Turn) (s : State) : Answer :=
  match t with
  | .host => runHost s
  | .encStep k a => exec (.encstep k a) s
  | .encDone => exec .encdone s
  | .xfer h => exec (.xfer h) s
  | .refDone => exec .refdone s
  | .tick => exec .tick s
  | .reset => .next s.powerOn

/-- A turn may be taken: no fault is recorded, or the turn is the reset that clears it (R194, R240; log 10). -/
abbrev State.live (s : State) : Prop := s.fault = none ∨ s.turn = .reset

/-- One step of the machine: an ill-formed configuration is refused (R6, log 16); a recorded fault is the answer to every
turn but a reset (log 10); else the next turn is taken. -/
def takeTurn (s : State) : Answer :=
  if s.cfg.Ok then
    match s.fault with
    | none => runTurn s.turn s.endTurn
    | some r => if s.turn = .reset then runTurn .reset s.endTurn else .fault r
  else .refused .illFormedConfig

/-- A state whose next turn is the HOST's, writing this word to CMD. -/
def State.withCommand (s : State) (w : Word) : State :=
  { s with turns := .host :: s.turns, prog := commandItem s.cfg w :: s.prog }

end Sys2Proof.Machine
end

