-- ==== Sys2Proof/Machine/Step.lean ====
section
/-! DEFINITION. The step function, and placing a command word where the next step takes it. -/

namespace Sys2Proof.Machine

/-- One step: the turn that comes next (Machine/Turns.lean). -/
def step (s : State) : Host.Outcome State Fault Refusal := takeTurn s

/-- The engine fetches no program (R2, R22): a command comes from the HOST's write of CMD. So the command word becomes
the HOST's next access, and the HOST's turn the next one (log 4). -/
def State.withFetchWord (s : State) (nbits w : Nat) : State :=
  s.withCommand (BitVec.ofNat 32 (w % 2 ^ nbits))

end Sys2Proof.Machine
end

