-- ==== Sys2Proof/Safety.lean ====
section
/-! DEFINITION. The invariants and the views of a run that claims about the engine speak of. -/

namespace Sys2Proof

/-- The operations the HOST issues (R90 a and b). -/
def Instr.isHostOp : Instr → Bool
  | .setpix _ _ _ => true
  | .getpix _ _ => true
  | .clear _ => true
  | .encode => true
  | .swapreq => true
  | .updswap => true
  | .start => true
  | .reserved0 _ => true
  | .reserved8F _ => true
  | .rdstatus => true
  | .rdpixdata => true
  | .pfrd _ _ => true
  | .pfwr _ _ _ => true
  | .encstep _ _ => false
  | .encdone => false
  | .xfer _ => false
  | .refdone => false
  | .tick => false

/-- The internal step an agent's turn takes (R13, R100); none for the HOST's turn and for reset. -/
def Turn.agentStep : Turn → Option Instr
  | .host => none
  | .encStep k a => some (.encstep k a)
  | .encDone => some .encdone
  | .xfer h => some (.xfer h)
  | .refDone => some .refdone
  | .tick => some .tick
  | .reset => none

namespace Machine

/-- The block itself (R20): the state with the HOST's side and the schedule blanked. Two states with the same block differ
only in what stands outside the engine. -/
def State.block (s : State) : State :=
  { s with rdata := 0, prog := [], hostNo := 0, turns := [], turnNo := 0 }

/-! ### Invariants -/

/-- The memories keep their canonical form and lie inside their sizes (R24, R26). -/
structure State.MemOk (s : State) : Prop where
  pf : Memory.wf s.pf ∧ Memory.within s.pf s.cfg.pfBytes
  sf : ∀ k, Memory.wf (s.sf.get k) ∧ Memory.within (s.sf.get k) s.cfg.planeBytes

/-- Where the driver stands in its sub-frame: items 4 and 5 of R43 for the channel and the lane of one half, while slot
`index` is scanned out. -/
structure HalfOk (cfg : Config) (index : Slot) (h : Half) (ch : Channel) (ln : Lane) : Prop where
  plane : ch.plane = index
  laneOn : ln.en = true
  lines : ln.lines = cfg.linesPerRefresh
  words : ln.words = cfg.wordsPerLine
  bound : ch.remaining ≤ cfg.halfWords
  pointer : ch.rdOff = cfg.halfStart h + 4 * (cfg.halfWords - ch.remaining)
  received : ln.rx.length = cfg.halfWords - ch.remaining
  enabled : ch.en = true ↔ 0 < ch.remaining

/-- The invariants of R43 (items 2 to 7; item 1 is the type of the index), with the range of `ENC.todo` (R34) and the
order it is held in (log 11). -/
structure State.ControlInv (s : State) : Prop where
  idle : s.enc.busy = false → s.enc.todo = []
  thenSwap : s.enc.thenSwap = true → s.enc.busy = true
  stopped : s.scn.run = false →
    s.scn.irqPending = false ∧ (∀ h, (s.ch h).en = false ∧ (s.ln h).en = false) ∧ s.out = []
  running : s.scn.run = true → ∀ h, HalfOk s.cfg s.cyc.index h (s.ch h) (s.ln h)
  latched : s.scn.irqPending = true → ∀ h, (s.ch h).remaining = 0
  noOverlap : ¬(s.cyc.swapPending = true ∧ s.enc.busy = true)
  todoRange : ∀ p ∈ s.enc.todo, p.2 < s.cfg.planeBytes
  todoRising : s.enc.todo.Pairwise fun p q => p.1.toNat < q.1.toNat ∨ (p.1 = q.1 ∧ p.2 < q.2)

/-- The sequence of sub-frames (R171): the records of `OUT` carry 0, 1, 2, 3, 0, ..., and the index is that of the
sub-frame in flight, or of the last record while its interrupt is latched. -/
structure State.SequenceInv (s : State) : Prop where
  indices : s.out.map Displayed.index = (List.range s.out.length).map (BitVec.ofNat 2)
  inFlight : s.scn.run = true → s.scn.irqPending = false → s.cyc.index = BitVec.ofNat 2 s.out.length
  latched : s.scn.run = true → s.scn.irqPending = true →
    0 < s.out.length ∧ s.cyc.index = BitVec.ofNat 2 (s.out.length - 1)
  stopped : s.scn.run = false → s.scn.irqPending = false ∧ s.out = []

/-- SF holds the generation of the current PF (R148). -/
def State.Generation (s : State) : Prop :=
  ∀ k a, a < s.cfg.planeBytes → s.sfByte k a = s.encByte k a

/-- During a run, every plane byte already written holds its new value (R146, R148). -/
def State.RunInv (s : State) : Prop :=
  s.enc.busy = true → ∀ k a, a < s.cfg.planeBytes → (k, a) ∉ s.enc.todo → s.sfByte k a = s.encByte k a

/-- The words a channel reads of plane k, half h, from the store as it stands (R161, R175). -/
def State.planeWords (s : State) (k : Slot) (h : Half) : List Word :=
  (List.range s.cfg.halfWords).map fun j => readLE (s.sfByte k) (s.cfg.halfStart h + 4 * j) 4

/-- What the lanes received of the sub-frame in flight is what the store holds (R175). -/
def State.RxFromStore (s : State) : Prop :=
  s.scn.run = true → ∀ h,
    (s.ln h).rx = (s.planeWords (s.ch h).plane h).take (s.cfg.halfWords - (s.ch h).remaining)

/-! ### Runs -/

/-- A TICK is about to be taken (R168). -/
abbrev State.takesTick (s : State) : Prop := s.turn = .tick ∧ s.tickEnabled

/-- A condition on the states before each of the first k steps. -/
def State.Along (P : State → Prop) : Nat → State → Prop
  | 0, _ => True
  | k + 1, s => P s ∧ ∀ t, step s = .next t → State.Along P k t

/-- How many TICKs the first k steps take. -/
def State.ticksIn : Nat → State → Nat
  | 0, _ => 0
  | k + 1, s =>
    match step s with
    | .next t => (if s.takesTick then 1 else 0) + State.ticksIn k t
    | .fault _ => 0
    | .refused _ => 0

/-- How many of the TICKs of the first k steps clear the swap flag: a wrap with the flag set (R168 step 5). -/
def State.clearsIn : Nat → State → Nat
  | 0, _ => 0
  | k + 1, s =>
    match step s with
    | .next t => (if s.takesTick ∧ s.cyc.index = 3 ∧ s.cyc.swapPending = true then 1 else 0) + State.clearsIn k t
    | .fault _ => 0
    | .refused _ => 0

/-! ### The HOST's obligation (R194) -/

/-- In a list of the HOST's items every SWAPREQ and every UPDSWAP is followed at once by WAITSWAP (R194). -/
def swapsWaited (c : Config) : List HostItem → Prop
  | [] => True
  | .access b :: rest =>
    (decodeAccess c b = .op .swapreq ∨ decodeAccess c b = .op .updswap → rest.head? = some .waitSwap) ∧
      swapsWaited c rest
  | .waitSwap :: rest => swapsWaited c rest

/-- A HOST that always completes WAITSWAP after each SWAPREQ or UPDSWAP (R194): while a swap is requested, by the flag or by
the run that will set it, the HOST waits. -/
structure State.SwapsSerialized (s : State) : Prop where
  future : swapsWaited s.cfg s.prog
  waiting : s.cyc.swapPending = true ∨ (s.enc.busy = true ∧ s.enc.thenSwap = true) → s.prog.head? = some .waitSwap

end Machine

end Sys2Proof
end

