-- ==== Sys2Proof/Certificates/Slice0/Obligations.lean ====
section
/-! DEFINITION. The statements for the provers. `OBLIGATIONS.json` lists them with their rules. An equation
`t = { s.accept with f := t.f }` is a frame: every field of the state but f and the HOST's queue is as it was. -/

open Sys2Proof Sys2Proof.Machine

/-! ### Encoding -/

/-- R91, R92, R94, R102: decoding the word of an operation gives the operation back, whatever its operands. -/
def Obligations.DecodeOfEncode : Prop :=
  ∀ (i : Instr) (w : Word), encode i = some w → decodeCommand w = i

/-- R99, R66, R67: the bus access by which the HOST issues an operation selects that operation, when the two base
addresses are multiples of 4 (so that aligned accesses reach the registers and the window's words) and a window operation
is well formed and inside PF. -/
def Obligations.AccessSelectsItsOperation : Prop :=
  ∀ (c : Config) (i : Instr) (b : BusAccess), c.Ok → c.regBase % 4 = 0 → c.pfWinBase % 4 = 0 → i.wellFormed = true →
    (∀ n a, i = .pfrd n a → c.windowOk n a) → (∀ n a v, i = .pfwr n a v → c.windowOk n a) →
    encodeAccess c i = some b → decodeAccess c b = .op i

/-- R94, R91: a word is the command of a row exactly if its masked bits are the row's match, and its operands then are its
fields; the nine rows of the table. -/
def Obligations.OpcodeMapByMatchAndMask : Prop :=
  ∀ w : Word,
    (w &&& 0xF0000000#32 = 0x10000000#32 ↔
      decodeCommand w = .setpix (w.extractLsb' 0 12) (w.extractLsb' 12 12) (w.extractLsb' 24 4)) ∧
    (w &&& 0xF0000000#32 = 0x20000000#32 ↔ decodeCommand w = .getpix (w.extractLsb' 0 12) (w.extractLsb' 12 12)) ∧
    (w &&& 0xF0000000#32 = 0x30000000#32 ↔ decodeCommand w = .clear (w.extractLsb' 24 4)) ∧
    (w &&& 0xF0000000#32 = 0x40000000#32 ↔ decodeCommand w = .encode) ∧
    (w &&& 0xF0000000#32 = 0x50000000#32 ↔ decodeCommand w = .swapreq) ∧
    (w &&& 0xF0000000#32 = 0x60000000#32 ↔ decodeCommand w = .updswap) ∧
    (w &&& 0xF0000000#32 = 0x70000000#32 ↔ decodeCommand w = .start) ∧
    (w &&& 0xF0000000#32 = 0x00000000#32 ↔ decodeCommand w = .reserved0 (w.extractLsb' 0 28)) ∧
    (w &&& 0x80000000#32 = 0x80000000#32 ↔ decodeCommand w = .reserved8F (w.extractLsb' 0 31))

/-- R97: reserved fields take no part; a command with any bits there is the command with zeros there. -/
def Obligations.ReservedFieldsIgnored : Prop :=
  ∀ (l : BitVec 4) (y x : BitVec 12),
    decodeCommand (commandWord 2 l y x) = .getpix x y ∧
    decodeCommand (commandWord 3 l y x) = .clear l ∧
    decodeCommand (commandWord 4 l y x) = .encode ∧
    decodeCommand (commandWord 5 l y x) = .swapreq ∧
    decodeCommand (commandWord 6 l y x) = .updswap ∧
    decodeCommand (commandWord 7 l y x) = .start

/-- R102, and the words of the vectors V1 to V10 and of the decoding table of 95_test_vectors: each decodes to what it
stands for. -/
def Obligations.SampleWordsDecode : Prop :=
  decodeCommand 0x17002005 = .setpix 5 2 7 ∧ decodeCommand 0x13000FFF = .setpix (-1) 0 3 ∧
  decodeCommand 0x1F8007FF = .setpix 2047 (-2048) 15 ∧ decodeCommand 0x20002005 = .getpix 5 2 ∧
  decodeCommand 0x20FFFFFF = .getpix (-1) (-1) ∧ decodeCommand 0x20FFF000 = .getpix 0 (-1) ∧
  decodeCommand 0x31000000 = .clear 1 ∧ decodeCommand 0x40000000 = .encode ∧ decodeCommand 0x4ABCDEF0 = .encode ∧
  decodeCommand 0x50000000 = .swapreq ∧ decodeCommand 0x60000000 = .updswap ∧ decodeCommand 0x70000000 = .start ∧
  decodeCommand 0x7FFFFFFF = .start ∧ decodeCommand 0x00000000 = .reserved0 0 ∧
  decodeCommand 0x80000000 = .reserved8F 0 ∧ decodeCommand 0xFFFFFFFF = .reserved8F 0x7FFFFFFF

/-- R40, R66, R99: which accesses of the register block have a meaning. A read reaches a register only if it is aligned, 32
bits wide and at offset 0, 4 or 8, and so does a write; every other access of the block is refused. -/
def Obligations.RegisterAccessesSelected : Prop :=
  ∀ (c : Config) (addr width : Nat) (data : Word), c.inRegs addr →
    (width = 4 ∧ addr % 4 = 0 →
      (addr = c.regBase → decodeAccess c (.read addr width) = .readCmd ∧
        decodeAccess c (.write addr width data) = .op (decodeCommand data)) ∧
      (addr = c.regBase + 4 → decodeAccess c (.read addr width) = .op .rdstatus ∧
        decodeAccess c (.write addr width data) = .ignoredWrite) ∧
      (addr = c.regBase + 8 → decodeAccess c (.read addr width) = .op .rdpixdata ∧
        decodeAccess c (.write addr width data) = .ignoredWrite)) ∧
    (¬(width = 4 ∧ addr % 4 = 0) ∨ (addr ≠ c.regBase ∧ addr ≠ c.regBase + 4 ∧ addr ≠ c.regBase + 8) →
      decodeAccess c (.read addr width) = .bad ∧ decodeAccess c (.write addr width data) = .bad)

/-- R67, R99: which accesses outside the register block have a meaning: those of 1, 2 or 4 bytes, naturally aligned and
wholly inside the PF window, select PFRD and PFWR at the window's offset; every other one is refused. That the offset is asked
to be aligned beside the address is log 7. -/
def Obligations.WindowAccessesSelected : Prop :=
  ∀ (c : Config) (addr width : Nat) (data : Word), ¬c.inRegs addr →
    (∀ n : Width, width = n.bytes → addr % width = 0 → (addr - c.pfWinBase) % width = 0 → c.pfWinBase ≤ addr →
      addr + width ≤ c.pfWinBase + c.pfBytes →
      decodeAccess c (.read addr width) = .op (.pfrd n (addr - c.pfWinBase)) ∧
      ∃ v, decodeAccess c (.write addr width data) = .op (.pfwr n (addr - c.pfWinBase) v) ∧
        ∀ i, i < n.bytes → v.extractLsb' (8 * i) 8 = data.extractLsb' (8 * i) 8) ∧
    (addr < c.pfWinBase ∨ c.pfWinBase + c.pfBytes < addr + width ∨ (∀ n : Width, width ≠ n.bytes) ∨ addr % width ≠ 0 ∨
        (addr - c.pfWinBase) % width ≠ 0 →
      decodeAccess c (.read addr width) = .bad ∧ decodeAccess c (.write addr width data) = .bad)

/-! ### The step -/

/-- R13, R70, R99: with no fault recorded a step takes the turn that comes next. The HOST's turn runs the operation its
access selects, unless the port holds it (that case is `PortHoldsWhileBusy`); an agent's turn runs that agent's step. What the
step adds is `endTurn`, by which the schedule moves on, and on the HOST's turn the recording of a fault (log 10). -/
def Obligations.StepRunsTheSelectedOperation : Prop :=
  ∀ (s : State) (i : Instr), s.cfg.Ok → s.fault = none →
    (∀ b, s.turn = .host → s.item = .access b → decodeAccess s.cfg b = .op i →
      ¬(heldAtPort i = true ∧ s.enc.busy = true) →
      (∀ t, exec i s.endTurn = .next t → step s = .next t) ∧
      (∀ r, exec i s.endTurn = .refused r → step s = .refused r) ∧
      (∀ r, exec i s.endTurn = .fault r → step s = .next { s.endTurn.accept with fault := some r })) ∧
    (s.turn.agentStep = some i → step s = exec i s.endTurn)

/-- R37, R38, R39, R40: the HOST's accesses that select no operation: a read of CMD answers 0 and has no effect, a write of
STATUS or PIXDATA is ignored, and an access without a meaning is refused. That none of these is held while an encoder run is
in progress is the model's choice (log 7). -/
def Obligations.AccessesWithoutAnOperation : Prop :=
  ∀ (s : State) (b : BusAccess), s.cfg.Ok → s.fault = none → s.turn = .host → s.item = .access b →
    (decodeAccess s.cfg b = .readCmd → step s = .next { s.endTurn.accept with rdata := 0 }) ∧
    (decodeAccess s.cfg b = .ignoredWrite → step s = .next s.endTurn.accept) ∧
    (decodeAccess s.cfg b = .bad → step s = .refused .badAccess)

/-- R95: while an encoder run is in progress every write of CMD, PFRD and PFWR waits at the port and changes nothing, and
the HOST's item stays; RDSTATUS and RDPIXDATA go through. -/
def Obligations.PortHoldsWhileBusy : Prop :=
  ∀ (s : State) (b : BusAccess) (i : Instr), s.cfg.Ok → s.fault = none → s.turn = .host → s.item = .access b →
    decodeAccess s.cfg b = .op i → s.enc.busy = true →
    (i ≠ .rdstatus → i ≠ .rdpixdata → step s = .next s.endTurn) ∧
    (i = .rdstatus ∨ i = .rdpixdata → ∃ t, step s = .next t ∧ t.prog = s.prog.tail ∧ t.block = s.block)

/-- R6, R258: a configuration that breaks a constraint is refused, whatever the turn. -/
def Obligations.IllFormedConfigRefused : Prop :=
  ∀ s : State, ¬s.cfg.Ok → step s = .refused .illFormedConfig

/-! ### Framebuffer operations -/

/-- R121, R128: SETPIX in bounds puts the clamped level in its 2-bit field and changes no other pixel field, pad pixels
included, and no other byte; out of bounds it changes nothing. -/
def Obligations.SetpixPutsItsPixel : Prop :=
  ∀ (s : State) (x y : BitVec 12) (level : BitVec 4), s.enc.busy = false →
    (¬s.cfg.inBounds x.toInt y.toInt → exec (.setpix x y level) s = .next s.accept) ∧
    (s.cfg.inBounds x.toInt y.toInt → ∀ px py : Nat, (px : Int) = x.toInt → (py : Int) = y.toInt →
      ∃ t, exec (.setpix x y level) s = .next t ∧ t = { s.accept with pf := t.pf } ∧
        t.pfByte (s.cfg.pfAddr px py) =
          (s.pfByte (s.cfg.pfAddr px py) &&& ~~~(3#8 <<< s.cfg.pfShift (px % 4))) |||
            (BitVec.ofNat 8 (min level.toNat 3) <<< s.cfg.pfShift (px % 4)) ∧
        (∀ b, b ≠ s.cfg.pfAddr px py → t.pfByte b = s.pfByte b) ∧
        (∀ k b, t.sfByte k b = s.sfByte k b) ∧
        t.pfPix px py = BitVec.ofNat 2 (min level.toNat 3) ∧
        ∀ u v, u / 4 < s.cfg.pfStride → (u, v) ≠ (px, py) → t.pfPix u v = s.pfPix u v)

/-- R122: GETPIX latches the pixel's level, 0 out of bounds, and changes nothing else; no other operation changes the
latched level. -/
def Obligations.GetpixLatchesTheLevel : Prop :=
  (∀ (s : State) (x y : BitVec 12), s.enc.busy = false →
    (¬s.cfg.inBounds x.toInt y.toInt → exec (.getpix x y) s = .next { s.accept with pixdata := 0 }) ∧
    (∀ px py : Nat, s.cfg.inBounds x.toInt y.toInt → (px : Int) = x.toInt → (py : Int) = y.toInt →
      exec (.getpix x y) s = .next { s.accept with pixdata := s.pfPix px py })) ∧
  ∀ (s t : State) (i : Instr), (∀ x y, i ≠ .getpix x y) → exec i s = .next t → t.pixdata = s.pixdata

/-- R123: CLEAR gives every byte of PF the clamped level in its four fields, pad pixels included, so that every pixel in
bounds reads that level; nothing else changes. -/
def Obligations.ClearFillsTheSurface : Prop :=
  ∀ (s : State) (level : BitVec 4), s.enc.busy = false →
    ∃ t, exec (.clear level) s = .next t ∧ t = { s.accept with pf := t.pf } ∧
      (∀ a, a < s.cfg.pfBytes → t.pfByte a = BitVec.ofNat 8 (min level.toNat 3 * 0x55)) ∧
      (∀ a, s.cfg.pfBytes ≤ a → t.pfByte a = s.pfByte a) ∧
      (∀ k a, t.sfByte k a = s.sfByte k a) ∧
      ∀ x y, x < s.cfg.width → y < s.cfg.height → t.pfPix x y = BitVec.ofNat 2 (min level.toNat 3)

/-- R124, R64, R67: PFRD answers its n bytes little-endian and changes nothing; an operand outside the constraint is
refused, also during a run (log 7). That the bits above the n bytes are 0 in the answer is log 6. -/
def Obligations.PfrdAnswersItsBytes : Prop :=
  ∀ (s : State) (n : Width) (a : Nat),
    (¬(a % n.bytes = 0 ∧ a + n.bytes ≤ s.cfg.pfBytes) → exec (.pfrd n a) s = .refused .badAccess) ∧
    (s.enc.busy = false → a % n.bytes = 0 ∧ a + n.bytes ≤ s.cfg.pfBytes →
      ∃ t, exec (.pfrd n a) s = .next t ∧ t = { s.accept with rdata := t.rdata } ∧
        (∀ b, t.pfByte b = s.pfByte b) ∧ (∀ k b, t.sfByte k b = s.sfByte k b) ∧
        ∀ i, i < 4 → t.rdata.extractLsb' (8 * i) 8 = if i < n.bytes then s.pfByte (a + i) else 0)

/-- R125, R64, R67: PFWR stores its n bytes little-endian and changes nothing else; an operand outside the constraint is
refused (also during a run: log 7). -/
def Obligations.PfwrStoresItsBytes : Prop :=
  ∀ (s : State) (n : Width) (a : Nat) (v : Word),
    (¬(a % n.bytes = 0 ∧ a + n.bytes ≤ s.cfg.pfBytes) → exec (.pfwr n a v) s = .refused .badAccess) ∧
    (s.enc.busy = false → a % n.bytes = 0 ∧ a + n.bytes ≤ s.cfg.pfBytes →
      ∃ t, exec (.pfwr n a v) s = .next t ∧ t = { s.accept with pf := t.pf } ∧
        (∀ i, i < n.bytes → t.pfByte (a + i) = v.extractLsb' (8 * i) 8) ∧
        (∀ b, b < a ∨ a + n.bytes ≤ b → t.pfByte b = s.pfByte b) ∧
        ∀ k b, t.sfByte k b = s.sfByte k b)

/-- R126: RDPIXDATA answers the latched level, zero-extended; it is never held and changes nothing. -/
def Obligations.RdpixdataAnswersTheLevel : Prop :=
  ∀ s : State, ∃ t, exec .rdpixdata s = .next t ∧ t = { s.accept with rdata := t.rdata } ∧
    t.rdata.toNat = s.pixdata.toNat

/-- R96: the model refuses the reserved opcodes, in every state. -/
def Obligations.ReservedOpcodesRefused : Prop :=
  ∀ (s : State) (p : BitVec 28) (q : BitVec 31),
    exec (.reserved0 p) s = .refused .reservedOpcode ∧ exec (.reserved8F q) s = .refused .reservedOpcode

/-- The model's own reading (log 5) of a command accepted only when the port is free (R95, R120): applied while a run is
in progress, an operation that the port holds changes nothing. A window access outside its constraint is not held but refused
(log 7; `PfrdAnswersItsBytes`, `PfwrStoresItsBytes`). -/
def Obligations.HeldOperationsChangeNothing : Prop :=
  ∀ (s : State) (i : Instr), s.enc.busy = true → i.isHostOp = true → i ≠ .rdstatus → i ≠ .rdpixdata →
    (∀ p, i ≠ .reserved0 p) → (∀ p, i ≠ .reserved8F p) → (∀ n a, i = .pfrd n a → s.cfg.windowOk n a) →
    (∀ n a v, i = .pfwr n a v → s.cfg.windowOk n a) → exec i s = .next s

/-! ### The dither encoder -/

/-- R144 (a) and (b): the number of slots in which a pixel is lit is 0, 1, 2, 4 for levels 0, 1, 2, 3; and two level-1
pixels are lit in the same slot exactly if their coordinate sums agree modulo 4. -/
def Obligations.LitCountsAndPhase : Prop :=
  (∀ (level : Slot) (x y : Nat), ([0, 1, 2, 3] : List Slot).countP (fun k => lit level k x y) =
    if level = 0 then 0 else if level = 1 then 1 else if level = 2 then 2 else 4) ∧
  (∀ x1 y1 x2 y2 : Nat, (∃ k, lit 1 k x1 y1 = true ∧ lit 1 k x2 y2 = true) ↔ (x1 + y1) % 4 = (x2 + y2) % 4)

/-- R141: the dither table. -/
def Obligations.DitherTable : Prop :=
  ∀ (k : Slot) (x y : Nat), lit 0 k x y = false ∧ (lit 1 k x y = true ↔ k.toNat = (x + y) % 4) ∧
    (lit 2 k x y = true ↔ k = 0 ∨ k = 2) ∧ lit 3 k x y = true

/-- R142: the bits of the byte the encoder stores at plane offset a, with 0 in the pad bits. -/
def Obligations.EncoderByteBits : Prop :=
  ∀ (s : State) (k : Slot) (a j x y : Nat), j < 8 → y = a / s.cfg.sfStride → x = 8 * (a % s.cfg.sfStride) + j →
    (x < s.cfg.width → (s.encByte k a).getLsbD (s.cfg.sfBitPos j) = lit (s.pfPix x y) k x y) ∧
    (s.cfg.width ≤ x → (s.encByte k a).getLsbD (s.cfg.sfBitPos j) = false)

/-- R144 (c), R142: the encoder's bytes depend on the pixels in bounds and on nothing else: not on pad pixels, not on SF,
not on any history. -/
def Obligations.EncoderReadsPixelsInBoundsOnly : Prop :=
  ∀ s u : State, u.cfg = s.cfg → s.cfg.Ok →
    (∀ x y, x < s.cfg.width → y < s.cfg.height → u.pfPix x y = s.pfPix x y) →
    ∀ k a, a < s.cfg.planeBytes → u.encByte k a = s.encByte k a

/-- R144 (e): of a frame with no level-1 pixel, planes 0 and 2 are encoded alike, and planes 1 and 3. -/
def Obligations.NoLevelOneFramesRepeat : Prop :=
  ∀ s : State, s.cfg.Ok → (∀ x y, x < s.cfg.width → y < s.cfg.height → s.pfPix x y ≠ 1) →
    ∀ a, a < s.cfg.planeBytes → s.encByte 0 a = s.encByte 2 a ∧ s.encByte 1 a = s.encByte 3 a

/-- R145, R191, R194: ENCODE and UPDSWAP start a run over the whole set of plane bytes, and differ in `then_swap` alone. -/
def Obligations.EncodeAndUpdswapStartARun : Prop :=
  ∀ s : State, s.enc.busy = false → s.cyc.swapPending = false →
    ∃ todo : List (Slot × Nat),
      exec .encode s = .next { s.accept with enc := { busy := true, thenSwap := false, todo := todo } } ∧
      exec .updswap s = .next { s.accept with enc := { busy := true, thenSwap := true, todo := todo } } ∧
      todo.Nodup ∧ todo.length = 4 * s.cfg.planeBytes ∧ ∀ k a, (k, a) ∈ todo ↔ a < s.cfg.planeBytes

/-- R213, R194: an overlapping swap request is a fault, of ENCODE, SWAPREQ and UPDSWAP alike. The step that accepts it
records the fault, and a recorded fault is the answer to every later turn but a reset (the form of the recording is log 10). -/
def Obligations.OverlappingSwapFaults : Prop :=
  (∀ s : State, s.enc.busy = false → s.cyc.swapPending = true →
    exec .encode s = .fault .swapOverlap ∧ exec .swapreq s = .fault .swapOverlap ∧
      exec .updswap s = .fault .swapOverlap) ∧
  (∀ (s : State) (b : BusAccess) (i : Instr), s.cfg.Ok → s.fault = none → s.turn = .host → s.item = .access b →
    decodeAccess s.cfg b = .op i → i = .encode ∨ i = .swapreq ∨ i = .updswap → s.enc.busy = false →
    s.cyc.swapPending = true → step s = .next { s.endTurn.accept with fault := some .swapOverlap }) ∧
  ∀ (s : State) (r : Fault), s.cfg.Ok → s.fault = some r → s.turn ≠ .reset → step s = .fault r

/-- R146: ENCSTEP writes the chosen plane byte and strikes it from the work set; any member may be chosen; no other byte,
no flag and nothing of the scanout changes. -/
def Obligations.EncstepWritesAnyChosenByte : Prop :=
  ∀ (s : State) (k : Slot) (a : Nat), s.enc.busy = true → (k, a) ∈ s.enc.todo → a < s.cfg.planeBytes →
    ∃ t, exec (.encstep k a) s = .next t ∧ t = { s with sf := t.sf, enc := { s.enc with todo := t.enc.todo } } ∧
      t.sfByte k a = s.encByte k a ∧ (∀ j b, (j, b) ≠ (k, a) → t.sfByte j b = s.sfByte j b) ∧
      (∀ b, t.pfByte b = s.pfByte b) ∧
      (∀ p, p ∈ t.enc.todo ↔ p ∈ s.enc.todo ∧ p ≠ (k, a))

/-- R147: ENCDONE ends the run, and sets the swap flag in the same step when the run was UPDSWAP's. -/
def Obligations.EncdoneEndsTheRun : Prop :=
  ∀ s : State, s.enc.busy = true → s.enc.todo = [] →
    exec .encdone s = .next { s with
      cyc := { index := s.cyc.index, swapPending := if s.enc.thenSwap = true then true else s.cyc.swapPending }
      enc := { busy := false, thenSwap := false, todo := [] } }

/-- R146, R148: every step keeps the run's invariant: each plane byte the run has written holds the value that the current
PF gives it, whatever the other agents do. -/
def Obligations.EveryStepKeepsTheRunInvariant : Prop :=
  ∀ s t : State, s.RunInv → step s = .next t → t.RunInv

/-- R148, R71 item 2: when ENCDONE has run, every byte of every plane holds its new value, and the port is free. -/
def Obligations.RunEndsWithTheGeneration : Prop :=
  ∀ s : State, s.RunInv → s.enc.busy = true → s.enc.todo = [] →
    ∃ t, exec .encdone s = .next t ∧ t.Generation ∧ t.enc.busy = false

/-- R95, R129, R254: PF does not change while a run is in progress, unless the engine is reset. -/
def Obligations.PfIsStableDuringARun : Prop :=
  ∀ s t : State, s.enc.busy = true → s.turn ≠ .reset → step s = .next t →
    t.pf = s.pf ∧ ∀ a, t.pfByte a = s.pfByte a

/-! ### The scanout driver -/

/-- R165, R163: START arms plane 0 and sets run; a second START is ignored. -/
def Obligations.StartArmsPlaneZero : Prop :=
  ∀ s : State, s.enc.busy = false →
    (s.scn.run = true → exec .start s = .next s.accept) ∧
    (s.scn.run = false → exec .start s = .next { s.accept with
      cyc := { index := 0, swapPending := s.cyc.swapPending }
      scn := { run := true, irqPending := s.scn.irqPending }
      ch0 := { en := true, plane := 0, rdOff := 0, remaining := s.cfg.halfWords }
      ch1 := { en := true, plane := 0, rdOff := s.cfg.halfBytes, remaining := s.cfg.halfWords }
      ln0 := { en := true, lines := s.cfg.linesPerRefresh, words := s.cfg.wordsPerLine, rx := [] }
      ln1 := { en := true, lines := s.cfg.linesPerRefresh, words := s.cfg.wordsPerLine, rx := [] } })

/-- R166, R63: XFER moves one little-endian word from the channel's plane to its lane, advances the pointer, counts down,
and disables the channel on the last word; nothing else changes, the other channel and lane least of all. -/
def Obligations.XferMovesOneWord : Prop :=
  ∀ (s : State) (h : Half), s.scn.run = true → (s.ch h).en = true → 0 < (s.ch h).remaining → (s.ln h).en = true →
    (s.ch h).rdOff + 4 ≤ s.cfg.planeBytes →
    ∃ t w, exec (.xfer h) s = .next t ∧
      (∀ i, i < 4 → w.extractLsb' (8 * i) 8 = s.sfByte (s.ch h).plane ((s.ch h).rdOff + i)) ∧
      t.ch h = { en := decide ((s.ch h).remaining ≠ 1), plane := (s.ch h).plane, rdOff := (s.ch h).rdOff + 4,
                 remaining := (s.ch h).remaining - 1 } ∧
      t.ln h = { s.ln h with rx := (s.ln h).rx ++ [w] } ∧
      (h = .half0 → t = { s with ch0 := t.ch0, ln0 := t.ln0 }) ∧
      (h = .half1 → t = { s with ch1 := t.ch1, ln1 := t.ln1 }) ∧
      (∀ b, t.pfByte b = s.pfByte b) ∧ ∀ k b, t.sfByte k b = s.sfByte k b

/-- R167: REFDONE appends the record of the sub-frame and latches the interrupt. -/
def Obligations.RefdoneRecordsTheSubFrame : Prop :=
  ∀ s : State, s.scn.run = true → s.scn.irqPending = false → s.ch0.remaining = 0 → s.ch1.remaining = 0 →
    exec .refdone s = .next { s with
      out := s.out ++ [{ index := s.cyc.index, rx0 := s.ln0.rx, rx1 := s.ln1.rx }]
      scn := { run := true, irqPending := true } }

/-- R168, R160, R163: TICK moves to the next slot, arms channels and lanes on its plane, clears the swap flag at a wrap and
only then, and clears the interrupt; no other state is read or written. -/
def Obligations.TickServicesTheInterrupt : Prop :=
  ∀ s : State, s.scn.run = true → s.scn.irqPending = true →
    ∃ i : Slot, i.toNat = (s.cyc.index.toNat + 1) % 4 ∧
      exec .tick s = .next { s with
        cyc := { index := i, swapPending := if s.cyc.index.toNat = 3 then false else s.cyc.swapPending }
        scn := { run := true, irqPending := false }
        ch0 := { en := true, plane := i, rdOff := 0, remaining := s.cfg.halfWords }
        ch1 := { en := true, plane := i, rdOff := s.cfg.halfBytes, remaining := s.cfg.halfWords }
        ln0 := { en := true, lines := s.cfg.linesPerRefresh, words := s.cfg.wordsPerLine, rx := [] }
        ln1 := { en := true, lines := s.cfg.linesPerRefresh, words := s.cfg.wordsPerLine, rx := [] } }

/-- The model's own reading (log 5) of a step that is not enabled (R100): it is not taken, and nothing changes. -/
def Obligations.DisabledStepsChangeNothing : Prop :=
  ∀ (s : State) (k : Slot) (a : Nat) (h : Half),
    (¬(s.enc.busy = true ∧ (k, a) ∈ s.enc.todo) → exec (.encstep k a) s = .next s) ∧
    (¬(s.enc.busy = true ∧ s.enc.todo = []) → exec .encdone s = .next s) ∧
    (¬(s.scn.run = true ∧ (s.ch h).en = true ∧ 0 < (s.ch h).remaining ∧ (s.ln h).en = true) →
      exec (.xfer h) s = .next s) ∧
    (¬(s.scn.run = true ∧ s.scn.irqPending = false ∧ s.ch0.remaining = 0 ∧ s.ch1.remaining = 0) →
      exec .refdone s = .next s) ∧
    (¬(s.scn.run = true ∧ s.scn.irqPending = true) → exec .tick s = .next s)

/-- R43: every step keeps the invariants of reachable states. -/
def Obligations.EveryStepKeepsTheControlInvariant : Prop :=
  ∀ s t : State, s.ControlInv → step s = .next t → t.ControlInv

/-- R171: every step keeps the sequence of sub-frames 0, 1, 2, 3, 0, ... without gap or repetition. -/
def Obligations.EveryStepKeepsTheSubFrameSequence : Prop :=
  ∀ s t : State, s.SequenceInv → step s = .next t → t.SequenceInv

/-- R24, R26 and log 2: every step keeps the memories in their canonical form and inside their sizes. -/
def Obligations.EveryStepKeepsTheMemoriesCanonical : Prop :=
  ∀ s t : State, s.MemOk → step s = .next t → t.MemOk

/-- R42, R43, R171: the state after reset meets every invariant, in every well-formed configuration and for every draw. -/
def Obligations.ResetMeetsTheInvariants : Prop :=
  ∀ (c : Config) (d : Nat), (State.resetWith c d).ControlInv ∧ (State.resetWith c d).SequenceInv ∧
    (State.resetWith c d).MemOk ∧ (State.resetWith c d).RunInv ∧ (State.resetWith c d).RxFromStore

/-- R175: arming makes what the lanes hold agree with the store, and every step that is not the encoder's keeps it so. -/
def Obligations.LanesHoldWhatTheStoreHolds : Prop :=
  (∀ s t : State, s.scn.run = true → s.scn.irqPending = true → exec .tick s = .next t → t.RxFromStore) ∧
  (∀ s t : State, s.enc.busy = false → s.scn.run = false → exec .start s = .next t → t.RxFromStore) ∧
  (∀ s t : State, s.ControlInv → s.RxFromStore → (∀ k a, s.turn ≠ .encStep k a) → step s = .next t → t.RxFromStore)

/-- R175: when what the lanes hold agrees with the store, the record of a sub-frame is the whole of the current plane, each
word once, split in its two halves. -/
def Obligations.RecordShowsTheWholePlane : Prop :=
  ∀ s : State, s.ControlInv → s.RxFromStore → s.scn.run = true → s.scn.irqPending = false →
    s.ch0.remaining = 0 → s.ch1.remaining = 0 →
    ∃ t, exec .refdone s = .next t ∧
      t.out = s.out ++ [Displayed.mk s.cyc.index
        ((List.range s.cfg.halfWords).map fun j => readLE (s.sfByte s.cyc.index) (4 * j) 4)
        ((List.range s.cfg.halfWords).map fun j => readLE (s.sfByte s.cyc.index) (s.cfg.halfBytes + 4 * j) 4)]

/-- R65, R172, R199: in a state that meets the invariants, with no fault recorded, every turn but the HOST's is answered by
a next state, and a reset also with a fault recorded: no agent of the engine ever stops the machine. -/
def Obligations.AgentsNeverStop : Prop :=
  ∀ s : State, s.cfg.Ok → s.ControlInv → s.fault = none ∨ s.turn = .reset → s.turn ≠ .host → ∃ t, step s = .next t

/-- R211, R213: in a state that meets the invariants, with no fault recorded, no step answers a fault, and the one fault a
step can record is an overlapping swap request, on the HOST's turn, with the port free and the flag set. -/
def Obligations.TheOnlyFaultIsSwapOverlap : Prop :=
  ∀ s : State, s.ControlInv → s.fault = none →
    (∀ r, step s ≠ .fault r) ∧
    ∀ t r, step s = .next t → t.fault = some r →
      r = .swapOverlap ∧ s.turn = .host ∧ s.enc.busy = false ∧ s.cyc.swapPending = true

/-- R199: nothing of the producer's can delay or change the service of the interrupt. Two states that agree on the
configuration, the slot and the scan flags take the same TICK, whatever their memories, encoder, swap flag and HOST. -/
def Obligations.ProducerCannotInfluenceATick : Prop :=
  ∀ s u : State, u.cfg = s.cfg → u.scn = s.scn → u.cyc.index = s.cyc.index →
    s.scn.run = true → s.scn.irqPending = true →
    ∃ t v, exec .tick s = .next t ∧ exec .tick u = .next v ∧
      v.scn = t.scn ∧ v.cyc.index = t.cyc.index ∧ v.ch0 = t.ch0 ∧ v.ch1 = t.ch1 ∧ v.ln0 = t.ln0 ∧ v.ln1 = t.ln1

/-- R160: once scanout runs, the slot changes by a TICK alone, to the next slot; reset apart. -/
def Obligations.OnlyATickMovesTheSlot : Prop :=
  ∀ s t : State, s.scn.run = true → s.turn ≠ .reset → step s = .next t →
    t.scn.run = true ∧
    (t.cyc.index = s.cyc.index ∨
      (s.turn = .tick ∧ s.scn.irqPending = true ∧ t.cyc.index.toNat = (s.cyc.index.toNat + 1) % 4))

/-! ### The buffer-swap synchronizer -/

/-- R190: SWAPREQ sets the flag and changes nothing else, whether or not the scanout runs; with the flag set it is the
fault. -/
def Obligations.SwapreqSetsTheFlag : Prop :=
  ∀ s : State, s.enc.busy = false →
    (s.cyc.swapPending = false →
      exec .swapreq s = .next { s.accept with cyc := { index := s.cyc.index, swapPending := true } }) ∧
    (s.cyc.swapPending = true → exec .swapreq s = .fault .swapOverlap)

/-- R192, R38: RDSTATUS answers the five fields at their bits and 0 elsewhere; it is never held and changes nothing. -/
def Obligations.RdstatusSamplesTheFields : Prop :=
  ∀ s : State, ∃ t, exec .rdstatus s = .next t ∧ t = { s.accept with rdata := t.rdata } ∧
    t.rdata.extractLsb' 0 2 = s.cyc.index ∧ t.rdata.getLsbD 2 = s.cyc.swapPending ∧
    t.rdata.getLsbD 3 = s.enc.busy ∧ t.rdata.getLsbD 4 = s.scn.run ∧ t.rdata.getLsbD 5 = s.scn.irqPending ∧
    ∀ i, 6 ≤ i → t.rdata.getLsbD i = false

/-- R193, R103: one iteration of WAITSWAP is an RDSTATUS; the wait goes on while the flag is set and ends when it reads
clear. While a run is in progress the command before it is not complete and the HOST does not begin it (log 17); with a
REG_BASE that is no multiple of 4 its RDSTATUS is refused (log 18). -/
def Obligations.WaitswapPollsTheFlag : Prop :=
  ∀ s : State, s.cfg.Ok → s.fault = none → s.turn = .host → s.item = .waitSwap →
    (s.enc.busy = true → step s = .next s.endTurn) ∧
    (s.enc.busy = false → s.cfg.regBase % 4 ≠ 0 → step s = .refused .badAccess) ∧
    (s.enc.busy = false → s.cfg.regBase % 4 = 0 →
      ∃ t, step s = .next t ∧ t.block = s.block ∧ t.rdata = s.status ∧ t.turns = s.turns.tail ∧
        (s.cyc.swapPending = true → t.prog = s.prog ∧ t.hostNo = s.hostNo) ∧
        (s.cyc.swapPending = false → t.prog = s.prog.tail ∧ t.hostNo = s.hostNo + 1))

/-- R71 item 4, R168 step 5: the swap flag goes from 1 to 0 only in a TICK that takes the slot from 3 to 0; reset apart. -/
def Obligations.OnlyAWrapClearsTheFlag : Prop :=
  ∀ s t : State, s.turn ≠ .reset → step s = .next t → s.cyc.swapPending = true → t.cyc.swapPending = false →
    s.turn = .tick ∧ s.scn.run = true ∧ s.scn.irqPending = true ∧ s.cyc.index = 3 ∧ t.cyc.index = 0

/-- R255: what polling may rely on, reset apart. A clear swap flag stays clear but for the HOST's SWAPREQ and the end of an
UPDSWAP run; a set run flag stays set; a clear busy flag stays clear but for the HOST's ENCODE or UPDSWAP. -/
def Obligations.PollingGuarantees : Prop :=
  ∀ s t : State, s.turn ≠ .reset → step s = .next t →
    (s.cyc.swapPending = false → t.cyc.swapPending = true →
      (s.turn = .host ∧ ∃ b, s.item = .access b ∧ decodeAccess s.cfg b = .op .swapreq) ∨
      (s.turn = .encDone ∧ s.enc.busy = true ∧ s.enc.thenSwap = true)) ∧
    (s.scn.run = true → t.scn.run = true) ∧
    (s.enc.busy = false → t.enc.busy = true → s.turn = .host ∧ ∃ b, s.item = .access b ∧
      (decodeAccess s.cfg b = .op .encode ∨ decodeAccess s.cfg b = .op .updswap))

/-- R195: a swap requested while the scanout runs in slot i is pending through the first 3 - i TICKs and cleared by the
(4 - i)-th, whatever else happens in between; reset apart. -/
def Obligations.SwapCompletesWithinOneCycle : Prop :=
  ∀ (k : Nat) (s t : State), s.scn.run = true → s.cyc.swapPending = true →
    State.Along (fun u => u.turn ≠ .reset) k s → Host.Core.run Sys2Proof.core k s = .next t →
    (State.ticksIn k s < 4 - s.cyc.index.toNat →
      t.cyc.swapPending = true ∧ t.cyc.index.toNat = s.cyc.index.toNat + State.ticksIn k s) ∧
    (State.ticksIn k s + 1 = 4 - s.cyc.index.toNat → t.takesTick →
      ∀ u, step t = .next u → u.cyc.swapPending = false ∧ u.cyc.index = 0)

/-- R194: a HOST that always completes WAITSWAP after each SWAPREQ or UPDSWAP meets its obligation. From a state in which the
HOST's items are so ordered, as long as there are any, no step of any agent faults or records a fault, and the next state is
again such a state. -/
def Obligations.WaitingHostNeverOverlaps : Prop :=
  ∀ s : State, s.ControlInv → s.fault = none → s.SwapsSerialized → s.prog ≠ [] →
    (∀ r, step s ≠ .fault r) ∧ ∀ t, step s = .next t → t.SwapsSerialized ∧ t.fault = none

/-- R197 (a), (b), (c), for both forms of R103: from the run of an UPDSWAP, or from the flag set by a SWAPREQ over a finished
generation, with WAITSWAP next and without a reset, whatever the agents do: when the wait ends the flag is clear, no run is in
progress, SF is the generation of the PF of the start, and exactly one wrap TICK has cleared the flag. It rests on when
WAITSWAP begins (log 17). -/
def Obligations.SwapCallReturns : Prop :=
  ∀ (k : Nat) (s t : State) (rest : List HostItem), s.ControlInv → s.prog = .waitSwap :: rest →
    (s.enc.busy = true ∧ s.enc.thenSwap = true ∧ s.RunInv) ∨
      (s.enc.busy = false ∧ s.cyc.swapPending = true ∧ s.Generation) →
    State.Along (fun u => u.turn ≠ .reset ∧ u.prog = .waitSwap :: rest) k s → Host.Core.run Sys2Proof.core k s = .next t →
    t.prog = rest →
    t.cyc.swapPending = false ∧ t.enc.busy = false ∧ t.Generation ∧ t.pf = s.pf ∧ State.clearsIn k s = 1

/-- R198, R175: the clean window. From a state with no run in progress and the lanes in step with the store, over any number
of steps before the next run and without reset, the planes do not change and every record appended shows one plane of
them, whole. -/
def Obligations.CleanWindowShowsOneGeneration : Prop :=
  ∀ (k : Nat) (s t : State), s.ControlInv → s.RxFromStore →
    State.Along (fun u => u.enc.busy = false ∧ u.turn ≠ .reset) k s → Host.Core.run Sys2Proof.core k s = .next t →
    t.sf = s.sf ∧ ∃ recs, t.out = s.out ++ recs ∧
      ∀ r ∈ recs, r.rx0 = s.planeWords r.index .half0 ∧ r.rx1 = s.planeWords r.index .half1

/-! ### Whole-machine rules -/

/-- R225, R27, R60: who writes what, in every step, reset apart. PF and the latched level change only on the HOST's turn,
SF only on the encoder's, the display history only by REFDONE, at its end; the configuration never. -/
def Obligations.AgentsWriteOnlyTheirOwn : Prop :=
  ∀ s t : State, s.turn ≠ .reset → step s = .next t →
    t.cfg = s.cfg ∧ t.draw = s.draw ∧
    (s.turn ≠ .host → t.pf = s.pf ∧ t.pixdata = s.pixdata) ∧
    ((∀ k a, s.turn ≠ .encStep k a) → t.sf = s.sf) ∧
    (s.turn ≠ .refDone → t.out = s.out) ∧
    (∃ recs, t.out = s.out ++ recs ∧ recs.length ≤ 1)

/-- R68, R69: the operations that store nothing change no byte of PF or SF. -/
def Obligations.NonStoringOperationsKeepTheMemories : Prop :=
  ∀ (s t : State) (i : Instr), exec i s = .next t → (∀ x y l, i ≠ .setpix x y l) → (∀ l, i ≠ .clear l) →
    (∀ n a v, i ≠ .pfwr n a v) → (∀ k a, i ≠ .encstep k a) →
    (∀ a, t.pfByte a = s.pfByte a) ∧ ∀ k a, t.sfByte k a = s.sfByte k a

/-! ### Reset -/

/-- R42: the control state after reset, in every configuration; and nothing written in PF and SF, whose bytes are the free
values of the draw (the free value is the model's form: log 2). -/
def Obligations.ResetValues : Prop :=
  ∀ (c : Config) (d : Nat) (s : State), s = State.resetWith c d →
    s.cyc.index = 0 ∧ s.cyc.swapPending = false ∧ s.scn.run = false ∧ s.scn.irqPending = false ∧
    (∀ h, s.ch h = { en := false, plane := 0, rdOff := 0, remaining := 0 } ∧
      s.ln h = { en := false, lines := 0, words := 0, rx := [] }) ∧
    s.enc = { busy := false, thenSwap := false, todo := [] } ∧ s.pixdata = 0 ∧ s.out = [] ∧ s.status = 0 ∧
    s.fault = none ∧
    (∀ a, s.pfByte a = Config.powerOnByte d .pf a) ∧ ∀ k a, s.sfByte k a = Config.powerOnByte d (.plane k) a

/-- R240, R241: a reset may come in any state, also with a fault recorded, which it clears; it leaves the block as after
reset, in its configuration, with a new draw of the memories, and the HOST with what it had (the HOST's side is the model's:
log 9). -/
def Obligations.ResetStepResetsTheBlock : Prop :=
  ∀ s : State, s.cfg.Ok → s.turn = .reset →
    ∃ t, step s = .next t ∧ t.block = (State.resetWith s.cfg (s.draw + 1)).block ∧ t.fault = none ∧
      t.prog = s.prog ∧ t.hostNo = s.hostNo ∧ t.rdata = s.rdata

/-- R242, R30: after reset, and as long as scanout is not started and no run is in progress, no agent but the HOST has an
enabled step: none of their turns changes the block. -/
def Obligations.IdleUntilTheHostActs : Prop :=
  ∀ (s t : State) (i : Instr), s.scn.run = false → s.enc.busy = false → s.turn.agentStep = some i →
    step s = .next t → t.block = s.block
end

