-- ==== Sys2Proof/Laws/Decode.lean ====
section
/-! SUPPORT. The fields of a command word. -/

namespace Sys2Proof

/-- A command word, bit by bit (R91). -/
theorem commandWord_getLsbD (op l : BitVec 4) (y x : BitVec 12) (i : Nat) :
    (commandWord op l y x).getLsbD i =
      if i < 12 then x.getLsbD i
      else if i - 12 < 12 then y.getLsbD (i - 12)
      else if i - 12 - 12 < 4 then l.getLsbD (i - 12 - 12)
      else op.getLsbD (i - 12 - 12 - 4) := by
  have h : (commandWord op l y x).getLsbD i = (((op ++ l) ++ y) ++ x).getLsbD i := rfl
  rw [h, BitVec.getLsbD_append, BitVec.getLsbD_append, BitVec.getLsbD_append]

/-- The field of a command word at a position, bit by bit. -/
theorem extract_eq {w : Word} {start n : Nat} {v : BitVec n}
    (h : ∀ i, i < n → w.getLsbD (start + i) = v.getLsbD i) : w.extractLsb' start n = v := by
  apply BitVec.eq_of_getLsbD_eq
  intro i hi
  rw [BitVec.getLsbD_extractLsb', decide_eq_true hi, Bool.true_and, h i hi]

theorem commandWord_op (op l : BitVec 4) (y x : BitVec 12) : (commandWord op l y x).extractLsb' 28 4 = op := by
  refine extract_eq fun i hi => ?_
  rw [commandWord_getLsbD, if_neg (by omega), if_neg (by omega), if_neg (by omega)]
  congr 1
  omega

theorem commandWord_level (op l : BitVec 4) (y x : BitVec 12) : (commandWord op l y x).extractLsb' 24 4 = l := by
  refine extract_eq fun i hi => ?_
  rw [commandWord_getLsbD, if_neg (by omega), if_neg (by omega), if_pos (by omega)]
  congr 1
  omega

theorem commandWord_y (op l : BitVec 4) (y x : BitVec 12) : (commandWord op l y x).extractLsb' 12 12 = y := by
  refine extract_eq fun i hi => ?_
  rw [commandWord_getLsbD, if_neg (by omega), if_pos (by omega)]
  congr 1
  omega

theorem commandWord_x (op l : BitVec 4) (y x : BitVec 12) : (commandWord op l y x).extractLsb' 0 12 = x := by
  refine extract_eq fun i hi => ?_
  rw [commandWord_getLsbD, if_pos (by omega)]
  congr 1
  omega

/-- The reserved words, bit by bit (R96). -/
theorem reserved0_getLsbD (p : BitVec 28) (i : Nat) :
    (show Word from 0#4 ++ p).getLsbD i = if i < 28 then p.getLsbD i else (0#4).getLsbD (i - 28) := by
  have h : (show Word from 0#4 ++ p).getLsbD i = (0#4 ++ p).getLsbD i := rfl
  rw [h, BitVec.getLsbD_append]

theorem reserved8F_getLsbD (p : BitVec 31) (i : Nat) :
    (show Word from 1#1 ++ p).getLsbD i = if i < 31 then p.getLsbD i else (1#1).getLsbD (i - 31) := by
  have h : (show Word from 1#1 ++ p).getLsbD i = (1#1 ++ p).getLsbD i := rfl
  rw [h, BitVec.getLsbD_append]

end Sys2Proof
end

