-- ==== Sys2Proof/Laws/Memory.lean ====
section
/-! SUPPORT. The byte memories: read after write, the canonical form kept by every operation, little-endian accesses. -/

namespace Sys2Proof.Machine

@[simp] theorem Memory.read_nil (x : Nat) : Memory.read [] x = none := rfl

theorem Memory.read_write_same (m : Memory) (x : Nat) (v : Byte) : Memory.read (Memory.write m x v) x = some v := by
  induction m with
  | nil => simp [Memory.write, Memory.read]
  | cons p rest ih =>
    obtain ⟨a, b⟩ := p
    simp only [Memory.write]
    split
    · simp [Memory.read]
    · split
      · simp [Memory.read]
      · simp [Memory.read, *]

theorem Memory.read_write_ne (m : Memory) {x y : Nat} (v : Byte) (h : y ≠ x) :
    Memory.read (Memory.write m x v) y = Memory.read m y := by
  induction m with
  | nil => simp [Memory.write, Memory.read, h]
  | cons p rest ih =>
    obtain ⟨a, b⟩ := p
    simp only [Memory.write]
    split
    · simp [Memory.read, h]
    · split
      · rename_i hxa
        subst hxa
        simp [Memory.read, h]
      · simp [Memory.read, ih]

/-- Read after write, both cases. -/
theorem Memory.read_write (m : Memory) (x y : Nat) (v : Byte) :
    Memory.read (Memory.write m x v) y = if y = x then some v else Memory.read m y := by
  split
  · subst_vars; exact Memory.read_write_same ..
  · exact Memory.read_write_ne _ _ ‹_›

/-- The entries of a memory after a write: the new one, and some of the old ones. -/
theorem Memory.mem_write {m : Memory} {x : Nat} {v : Byte} {p : Host.Cell} (h : p ∈ Memory.write m x v) :
    p = (x, v) ∨ p ∈ m := by
  induction m with
  | nil => simpa [Memory.write] using h
  | cons q rest ih =>
    obtain ⟨a, b⟩ := q
    simp only [Memory.write] at h
    split at h
    · simpa using h
    · split at h
      · rcases List.mem_cons.mp h with h | h
        · exact .inl h
        · exact .inr (List.mem_cons_of_mem _ h)
      · rcases List.mem_cons.mp h with h | h
        · exact .inr (h ▸ List.mem_cons_self ..)
        · exact (ih h).imp_right (List.mem_cons_of_mem _)

/-- A write keeps the canonical form. -/
theorem Memory.write_wf {m : Memory} (hm : Memory.wf m) (x : Nat) (v : Byte) : Memory.wf (Memory.write m x v) := by
  induction m with
  | nil => simp [Memory.write]
  | cons q rest ih =>
    obtain ⟨a, b⟩ := q
    have ⟨hq, hrest⟩ := List.pairwise_cons.mp hm
    simp only [Memory.write]
    split
    · refine List.pairwise_cons.mpr ⟨fun p hp => ?_, hm⟩
      rcases List.mem_cons.mp hp with rfl | hp
      · assumption
      · have := hq p hp
        simp only at this
        show x < p.1
        omega
    · split
      · rename_i hxa
        subst hxa
        exact List.pairwise_cons.mpr ⟨hq, hrest⟩
      · refine List.pairwise_cons.mpr ⟨fun p hp => ?_, ih hrest⟩
        rcases Memory.mem_write hp with rfl | hp
        · show a < x
          omega
        · exact hq p hp

/-- A write below the size keeps every offset below it. -/
theorem Memory.write_within {m : Memory} {size x : Nat} (hm : Memory.within m size) (hx : x < size) (v : Byte) :
    Memory.within (Memory.write m x v) size := by
  intro p hp
  rcases Memory.mem_write hp with rfl | hp
  · exact hx
  · exact hm p hp

/-- A little-endian write keeps the canonical form. -/
theorem Memory.writeLE_wf {m : Memory} (hm : Memory.wf m) (a n : Nat) (v : Word) : Memory.wf (Memory.writeLE m a n v) := by
  induction n generalizing m a v with
  | zero => exact hm
  | succ n ih => exact ih (Memory.write_wf hm _ _) _ _

theorem Memory.writeLE_within {m : Memory} {size a n : Nat} (hm : Memory.within m size) (h : a + n ≤ size) (v : Word) :
    Memory.within (Memory.writeLE m a n v) size := by
  induction n generalizing m a v with
  | zero => exact hm
  | succ n ih => exact ih (Memory.write_within hm (by omega) _) (by omega) _

/-- What a little-endian write stores, and that it stores nothing else (R10). -/
theorem Memory.read_writeLE (m : Memory) (a n : Nat) (v : Word) (x : Nat) :
    Memory.read (Memory.writeLE m a n v) x =
      if a ≤ x ∧ x < a + n then some (v.extractLsb' (8 * (x - a)) 8) else Memory.read m x := by
  induction n generalizing m a v with
  | zero =>
    have h : ¬(a ≤ x ∧ x < a + 0) := by omega
    rw [Memory.writeLE, if_neg h]
  | succ n ih =>
    rw [Memory.writeLE, ih, Memory.read_write]
    by_cases hx : x = a
    · subst hx
      have h1 : ¬(x + 1 ≤ x ∧ x < x + 1 + n) := by omega
      have h2 : x ≤ x ∧ x < x + (n + 1) := by omega
      rw [if_neg h1, if_pos rfl, if_pos h2]
      congr 1
      ext i
      simp
    · by_cases h : a + 1 ≤ x ∧ x < a + 1 + n
      · have h2 : a ≤ x ∧ x < a + (n + 1) := by omega
        rw [if_pos h, if_pos h2]
        congr 1
        ext i
        have : 8 + (8 * (x - (a + 1)) + i) = 8 * (x - a) + i := by omega
        simp [this]
      · have h2 : ¬(a ≤ x ∧ x < a + (n + 1)) := by omega
        rw [if_neg h, if_neg hx, if_neg h2]

theorem Memory.fill_succ (m : Memory) (n : Nat) (v : Byte) :
    Memory.fill m (n + 1) v = Memory.write (Memory.fill m n v) n v := by
  simp [Memory.fill, List.range_succ]

/-- What a fill stores, and that it stores nothing else (R123). -/
theorem Memory.read_fill (m : Memory) (n : Nat) (v : Byte) (x : Nat) :
    Memory.read (Memory.fill m n v) x = if x < n then some v else Memory.read m x := by
  induction n with
  | zero => simp [Memory.fill]
  | succ n ih =>
    rw [Memory.fill_succ, Memory.read_write, ih]
    by_cases hx : x = n
    · simp [hx]
    · have : x < n + 1 ↔ x < n := by omega
      simp [hx, this]

theorem Memory.fill_wf {m : Memory} (hm : Memory.wf m) (n : Nat) (v : Byte) : Memory.wf (Memory.fill m n v) := by
  induction n with
  | zero => exact hm
  | succ n ih => rw [Memory.fill_succ]; exact Memory.write_wf ih _ _

theorem Memory.fill_within {m : Memory} {size n : Nat} (hm : Memory.within m size) (h : n ≤ size) (v : Byte) :
    Memory.within (Memory.fill m n v) size := by
  induction n with
  | zero => exact hm
  | succ n ih => rw [Memory.fill_succ]; exact Memory.write_within (ih (by omega)) (by omega) _

/-- Byte i of a little-endian read of n bytes is the byte at a + i; the bytes from n up are 0 (R10). -/
theorem readLE_byte (f : Nat → Byte) (a n i : Nat) (hi : i < 4) (hn : n ≤ 4) :
    (readLE f a n).extractLsb' (8 * i) 8 = if i < n then f (a + i) else 0 := by
  induction n generalizing a i with
  | zero => simp [readLE]
  | succ n ih =>
    rw [readLE]
    cases i with
    | zero =>
      ext j hj
      have h1 : j < 8 := hj
      have h2 : j < 32 := by omega
      simp [h1, h2]
    | succ i =>
      have ihi := ih (a + 1) i (by omega) (by omega)
      have e : a + 1 + i = a + (i + 1) := by omega
      rw [e] at ihi
      simp only [Nat.add_lt_add_iff_right]
      rw [← ihi]
      ext j hj
      have h0 : ¬ (8 * (i + 1) + j < 8) := by omega
      have h1 : 8 * (i + 1) + j - 8 = 8 * i + j := by omega
      have h2 : 8 * (i + 1) + j < 32 := by omega
      have h3 : (f a).getLsbD (8 * (i + 1) + j) = false := BitVec.getLsbD_of_ge _ _ (by omega)
      have h4 : 8 * i + j < 32 := by omega
      simp [h0, h1, h2, h3, BitVec.getLsbD_eq_getElem h4]

/-- A little-endian read depends only on the bytes it names. -/
theorem readLE_congr {f g : Nat → Byte} {a n : Nat} (h : ∀ x, a ≤ x → x < a + n → f x = g x) :
    readLE f a n = readLE g a n := by
  induction n generalizing a with
  | zero => rfl
  | succ n ih =>
    rw [readLE, readLE, h a (by omega) (by omega), ih fun x h1 h2 => h x (by omega) (by omega)]

/-! ### Planes -/

@[simp] theorem Planes.get_set_same (p : Planes) (k : Slot) (m : Memory) : (p.set k m).get k = m := by
  rcases (by decide : ∀ k : Slot, k = 0 ∨ k = 1 ∨ k = 2 ∨ k = 3) k with h | h | h | h <;> subst h <;> rfl

theorem Planes.get_set_ne (p : Planes) {j k : Slot} (m : Memory) (h : j ≠ k) : (p.set k m).get j = p.get j := by
  have all := (by decide : ∀ k : Slot, k = 0 ∨ k = 1 ∨ k = 2 ∨ k = 3)
  rcases all k with hk | hk | hk | hk <;> rcases all j with hj | hj | hj | hj <;> subst hk <;> subst hj <;>
    first | rfl | exact absurd rfl h

/-- Two stores with the same four planes are the same. -/
theorem Planes.ext_get {p q : Planes} (h : ∀ k, p.get k = q.get k) : p = q := by
  obtain ⟨a, b, c, d⟩ := p
  obtain ⟨a', b', c', d'⟩ := q
  have h0 := h 0
  have h1 := h 1
  have h2 := h 2
  have h3 := h 3
  simp only [Planes.get] at h0 h1 h2 h3
  simp_all

end Sys2Proof.Machine
end

