-- ==== Sys2Proof/Laws/State.lean ====
section
/-! SUPPORT. One lemma per field per update of the state, so that no later proof unfolds a record update. -/

namespace Sys2Proof.Machine


/-! ### State.accept -/

@[simp] theorem State.accept_cfg (s : State) : (s.accept).cfg = s.cfg := rfl
@[simp] theorem State.accept_pf (s : State) : (s.accept).pf = s.pf := rfl
@[simp] theorem State.accept_sf (s : State) : (s.accept).sf = s.sf := rfl
@[simp] theorem State.accept_cyc (s : State) : (s.accept).cyc = s.cyc := rfl
@[simp] theorem State.accept_scn (s : State) : (s.accept).scn = s.scn := rfl
@[simp] theorem State.accept_ch0 (s : State) : (s.accept).ch0 = s.ch0 := rfl
@[simp] theorem State.accept_ch1 (s : State) : (s.accept).ch1 = s.ch1 := rfl
@[simp] theorem State.accept_ln0 (s : State) : (s.accept).ln0 = s.ln0 := rfl
@[simp] theorem State.accept_ln1 (s : State) : (s.accept).ln1 = s.ln1 := rfl
@[simp] theorem State.accept_enc (s : State) : (s.accept).enc = s.enc := rfl
@[simp] theorem State.accept_pixdata (s : State) : (s.accept).pixdata = s.pixdata := rfl
@[simp] theorem State.accept_out (s : State) : (s.accept).out = s.out := rfl
@[simp] theorem State.accept_draw (s : State) : (s.accept).draw = s.draw := rfl
@[simp] theorem State.accept_fault (s : State) : (s.accept).fault = s.fault := rfl
@[simp] theorem State.accept_rdata (s : State) : (s.accept).rdata = s.rdata := rfl
@[simp] theorem State.accept_prog (s : State) : (s.accept).prog = s.prog.tail := rfl
@[simp] theorem State.accept_hostNo (s : State) : (s.accept).hostNo = s.hostNo + 1 := rfl
@[simp] theorem State.accept_turns (s : State) : (s.accept).turns = s.turns := rfl
@[simp] theorem State.accept_turnNo (s : State) : (s.accept).turnNo = s.turnNo := rfl

/-! ### State.recordFault -/

@[simp] theorem State.recordFault_cfg (s : State) (r : Fault) : (s.recordFault r).cfg = s.cfg := rfl
@[simp] theorem State.recordFault_pf (s : State) (r : Fault) : (s.recordFault r).pf = s.pf := rfl
@[simp] theorem State.recordFault_sf (s : State) (r : Fault) : (s.recordFault r).sf = s.sf := rfl
@[simp] theorem State.recordFault_cyc (s : State) (r : Fault) : (s.recordFault r).cyc = s.cyc := rfl
@[simp] theorem State.recordFault_scn (s : State) (r : Fault) : (s.recordFault r).scn = s.scn := rfl
@[simp] theorem State.recordFault_ch0 (s : State) (r : Fault) : (s.recordFault r).ch0 = s.ch0 := rfl
@[simp] theorem State.recordFault_ch1 (s : State) (r : Fault) : (s.recordFault r).ch1 = s.ch1 := rfl
@[simp] theorem State.recordFault_ln0 (s : State) (r : Fault) : (s.recordFault r).ln0 = s.ln0 := rfl
@[simp] theorem State.recordFault_ln1 (s : State) (r : Fault) : (s.recordFault r).ln1 = s.ln1 := rfl
@[simp] theorem State.recordFault_enc (s : State) (r : Fault) : (s.recordFault r).enc = s.enc := rfl
@[simp] theorem State.recordFault_pixdata (s : State) (r : Fault) : (s.recordFault r).pixdata = s.pixdata := rfl
@[simp] theorem State.recordFault_out (s : State) (r : Fault) : (s.recordFault r).out = s.out := rfl
@[simp] theorem State.recordFault_draw (s : State) (r : Fault) : (s.recordFault r).draw = s.draw := rfl
@[simp] theorem State.recordFault_fault (s : State) (r : Fault) : (s.recordFault r).fault = some r := rfl
@[simp] theorem State.recordFault_rdata (s : State) (r : Fault) : (s.recordFault r).rdata = s.rdata := rfl
@[simp] theorem State.recordFault_prog (s : State) (r : Fault) : (s.recordFault r).prog = s.prog.tail := rfl
@[simp] theorem State.recordFault_hostNo (s : State) (r : Fault) : (s.recordFault r).hostNo = s.hostNo + 1 := rfl
@[simp] theorem State.recordFault_turns (s : State) (r : Fault) : (s.recordFault r).turns = s.turns := rfl
@[simp] theorem State.recordFault_turnNo (s : State) (r : Fault) : (s.recordFault r).turnNo = s.turnNo := rfl

/-! ### State.answer -/

@[simp] theorem State.answer_cfg (s : State) (v : Word) : (s.answer v).cfg = s.cfg := rfl
@[simp] theorem State.answer_pf (s : State) (v : Word) : (s.answer v).pf = s.pf := rfl
@[simp] theorem State.answer_sf (s : State) (v : Word) : (s.answer v).sf = s.sf := rfl
@[simp] theorem State.answer_cyc (s : State) (v : Word) : (s.answer v).cyc = s.cyc := rfl
@[simp] theorem State.answer_scn (s : State) (v : Word) : (s.answer v).scn = s.scn := rfl
@[simp] theorem State.answer_ch0 (s : State) (v : Word) : (s.answer v).ch0 = s.ch0 := rfl
@[simp] theorem State.answer_ch1 (s : State) (v : Word) : (s.answer v).ch1 = s.ch1 := rfl
@[simp] theorem State.answer_ln0 (s : State) (v : Word) : (s.answer v).ln0 = s.ln0 := rfl
@[simp] theorem State.answer_ln1 (s : State) (v : Word) : (s.answer v).ln1 = s.ln1 := rfl
@[simp] theorem State.answer_enc (s : State) (v : Word) : (s.answer v).enc = s.enc := rfl
@[simp] theorem State.answer_pixdata (s : State) (v : Word) : (s.answer v).pixdata = s.pixdata := rfl
@[simp] theorem State.answer_out (s : State) (v : Word) : (s.answer v).out = s.out := rfl
@[simp] theorem State.answer_draw (s : State) (v : Word) : (s.answer v).draw = s.draw := rfl
@[simp] theorem State.answer_fault (s : State) (v : Word) : (s.answer v).fault = s.fault := rfl
@[simp] theorem State.answer_rdata (s : State) (v : Word) : (s.answer v).rdata = v := rfl
@[simp] theorem State.answer_prog (s : State) (v : Word) : (s.answer v).prog = s.prog.tail := rfl
@[simp] theorem State.answer_hostNo (s : State) (v : Word) : (s.answer v).hostNo = s.hostNo + 1 := rfl
@[simp] theorem State.answer_turns (s : State) (v : Word) : (s.answer v).turns = s.turns := rfl
@[simp] theorem State.answer_turnNo (s : State) (v : Word) : (s.answer v).turnNo = s.turnNo := rfl

/-! ### State.endTurn -/

@[simp] theorem State.endTurn_cfg (s : State) : (s.endTurn).cfg = s.cfg := rfl
@[simp] theorem State.endTurn_pf (s : State) : (s.endTurn).pf = s.pf := rfl
@[simp] theorem State.endTurn_sf (s : State) : (s.endTurn).sf = s.sf := rfl
@[simp] theorem State.endTurn_cyc (s : State) : (s.endTurn).cyc = s.cyc := rfl
@[simp] theorem State.endTurn_scn (s : State) : (s.endTurn).scn = s.scn := rfl
@[simp] theorem State.endTurn_ch0 (s : State) : (s.endTurn).ch0 = s.ch0 := rfl
@[simp] theorem State.endTurn_ch1 (s : State) : (s.endTurn).ch1 = s.ch1 := rfl
@[simp] theorem State.endTurn_ln0 (s : State) : (s.endTurn).ln0 = s.ln0 := rfl
@[simp] theorem State.endTurn_ln1 (s : State) : (s.endTurn).ln1 = s.ln1 := rfl
@[simp] theorem State.endTurn_enc (s : State) : (s.endTurn).enc = s.enc := rfl
@[simp] theorem State.endTurn_pixdata (s : State) : (s.endTurn).pixdata = s.pixdata := rfl
@[simp] theorem State.endTurn_out (s : State) : (s.endTurn).out = s.out := rfl
@[simp] theorem State.endTurn_draw (s : State) : (s.endTurn).draw = s.draw := rfl
@[simp] theorem State.endTurn_fault (s : State) : (s.endTurn).fault = s.fault := rfl
@[simp] theorem State.endTurn_rdata (s : State) : (s.endTurn).rdata = s.rdata := rfl
@[simp] theorem State.endTurn_prog (s : State) : (s.endTurn).prog = s.prog := rfl
@[simp] theorem State.endTurn_hostNo (s : State) : (s.endTurn).hostNo = s.hostNo := rfl
@[simp] theorem State.endTurn_turns (s : State) : (s.endTurn).turns = s.turns.tail := rfl
@[simp] theorem State.endTurn_turnNo (s : State) : (s.endTurn).turnNo = s.turnNo + 1 := rfl

/-! ### State.arm -/

@[simp] theorem State.arm_cfg (s : State) (i : Slot) : (s.arm i).cfg = s.cfg := rfl
@[simp] theorem State.arm_pf (s : State) (i : Slot) : (s.arm i).pf = s.pf := rfl
@[simp] theorem State.arm_sf (s : State) (i : Slot) : (s.arm i).sf = s.sf := rfl
@[simp] theorem State.arm_cyc (s : State) (i : Slot) : (s.arm i).cyc = s.cyc := rfl
@[simp] theorem State.arm_scn (s : State) (i : Slot) : (s.arm i).scn = s.scn := rfl
@[simp] theorem State.arm_ch0 (s : State) (i : Slot) : (s.arm i).ch0 = Channel.armed s.cfg i .half0 := rfl
@[simp] theorem State.arm_ch1 (s : State) (i : Slot) : (s.arm i).ch1 = Channel.armed s.cfg i .half1 := rfl
@[simp] theorem State.arm_ln0 (s : State) (i : Slot) : (s.arm i).ln0 = Lane.armed s.cfg := rfl
@[simp] theorem State.arm_ln1 (s : State) (i : Slot) : (s.arm i).ln1 = Lane.armed s.cfg := rfl
@[simp] theorem State.arm_enc (s : State) (i : Slot) : (s.arm i).enc = s.enc := rfl
@[simp] theorem State.arm_pixdata (s : State) (i : Slot) : (s.arm i).pixdata = s.pixdata := rfl
@[simp] theorem State.arm_out (s : State) (i : Slot) : (s.arm i).out = s.out := rfl
@[simp] theorem State.arm_draw (s : State) (i : Slot) : (s.arm i).draw = s.draw := rfl
@[simp] theorem State.arm_fault (s : State) (i : Slot) : (s.arm i).fault = s.fault := rfl
@[simp] theorem State.arm_rdata (s : State) (i : Slot) : (s.arm i).rdata = s.rdata := rfl
@[simp] theorem State.arm_prog (s : State) (i : Slot) : (s.arm i).prog = s.prog := rfl
@[simp] theorem State.arm_hostNo (s : State) (i : Slot) : (s.arm i).hostNo = s.hostNo := rfl
@[simp] theorem State.arm_turns (s : State) (i : Slot) : (s.arm i).turns = s.turns := rfl
@[simp] theorem State.arm_turnNo (s : State) (i : Slot) : (s.arm i).turnNo = s.turnNo := rfl

/-! ### State.writeSf -/

@[simp] theorem State.writeSf_cfg (s : State) (k : Slot) (a : Nat) (v : Byte) : (s.writeSf k a v).cfg = s.cfg := rfl
@[simp] theorem State.writeSf_pf (s : State) (k : Slot) (a : Nat) (v : Byte) : (s.writeSf k a v).pf = s.pf := rfl
@[simp] theorem State.writeSf_sf (s : State) (k : Slot) (a : Nat) (v : Byte) : (s.writeSf k a v).sf = s.sf.set k (Memory.write (s.sf.get k) a v) := rfl
@[simp] theorem State.writeSf_cyc (s : State) (k : Slot) (a : Nat) (v : Byte) : (s.writeSf k a v).cyc = s.cyc := rfl
@[simp] theorem State.writeSf_scn (s : State) (k : Slot) (a : Nat) (v : Byte) : (s.writeSf k a v).scn = s.scn := rfl
@[simp] theorem State.writeSf_ch0 (s : State) (k : Slot) (a : Nat) (v : Byte) : (s.writeSf k a v).ch0 = s.ch0 := rfl
@[simp] theorem State.writeSf_ch1 (s : State) (k : Slot) (a : Nat) (v : Byte) : (s.writeSf k a v).ch1 = s.ch1 := rfl
@[simp] theorem State.writeSf_ln0 (s : State) (k : Slot) (a : Nat) (v : Byte) : (s.writeSf k a v).ln0 = s.ln0 := rfl
@[simp] theorem State.writeSf_ln1 (s : State) (k : Slot) (a : Nat) (v : Byte) : (s.writeSf k a v).ln1 = s.ln1 := rfl
@[simp] theorem State.writeSf_enc (s : State) (k : Slot) (a : Nat) (v : Byte) : (s.writeSf k a v).enc = s.enc := rfl
@[simp] theorem State.writeSf_pixdata (s : State) (k : Slot) (a : Nat) (v : Byte) : (s.writeSf k a v).pixdata = s.pixdata := rfl
@[simp] theorem State.writeSf_out (s : State) (k : Slot) (a : Nat) (v : Byte) : (s.writeSf k a v).out = s.out := rfl
@[simp] theorem State.writeSf_draw (s : State) (k : Slot) (a : Nat) (v : Byte) : (s.writeSf k a v).draw = s.draw := rfl
@[simp] theorem State.writeSf_fault (s : State) (k : Slot) (a : Nat) (v : Byte) : (s.writeSf k a v).fault = s.fault := rfl
@[simp] theorem State.writeSf_rdata (s : State) (k : Slot) (a : Nat) (v : Byte) : (s.writeSf k a v).rdata = s.rdata := rfl
@[simp] theorem State.writeSf_prog (s : State) (k : Slot) (a : Nat) (v : Byte) : (s.writeSf k a v).prog = s.prog := rfl
@[simp] theorem State.writeSf_hostNo (s : State) (k : Slot) (a : Nat) (v : Byte) : (s.writeSf k a v).hostNo = s.hostNo := rfl
@[simp] theorem State.writeSf_turns (s : State) (k : Slot) (a : Nat) (v : Byte) : (s.writeSf k a v).turns = s.turns := rfl
@[simp] theorem State.writeSf_turnNo (s : State) (k : Slot) (a : Nat) (v : Byte) : (s.writeSf k a v).turnNo = s.turnNo := rfl

/-! ### State.setPixel -/

@[simp] theorem State.setPixel_cfg (s : State) (x y : Nat) (v : Slot) : (s.setPixel x y v).cfg = s.cfg := rfl
@[simp] theorem State.setPixel_pf (s : State) (x y : Nat) (v : Slot) : (s.setPixel x y v).pf = Memory.write s.pf (s.cfg.pfAddr x y)
      (putField (s.pfByte (s.cfg.pfAddr x y)) (s.cfg.pfShift (x % 4)) v) := rfl
@[simp] theorem State.setPixel_sf (s : State) (x y : Nat) (v : Slot) : (s.setPixel x y v).sf = s.sf := rfl
@[simp] theorem State.setPixel_cyc (s : State) (x y : Nat) (v : Slot) : (s.setPixel x y v).cyc = s.cyc := rfl
@[simp] theorem State.setPixel_scn (s : State) (x y : Nat) (v : Slot) : (s.setPixel x y v).scn = s.scn := rfl
@[simp] theorem State.setPixel_ch0 (s : State) (x y : Nat) (v : Slot) : (s.setPixel x y v).ch0 = s.ch0 := rfl
@[simp] theorem State.setPixel_ch1 (s : State) (x y : Nat) (v : Slot) : (s.setPixel x y v).ch1 = s.ch1 := rfl
@[simp] theorem State.setPixel_ln0 (s : State) (x y : Nat) (v : Slot) : (s.setPixel x y v).ln0 = s.ln0 := rfl
@[simp] theorem State.setPixel_ln1 (s : State) (x y : Nat) (v : Slot) : (s.setPixel x y v).ln1 = s.ln1 := rfl
@[simp] theorem State.setPixel_enc (s : State) (x y : Nat) (v : Slot) : (s.setPixel x y v).enc = s.enc := rfl
@[simp] theorem State.setPixel_pixdata (s : State) (x y : Nat) (v : Slot) : (s.setPixel x y v).pixdata = s.pixdata := rfl
@[simp] theorem State.setPixel_out (s : State) (x y : Nat) (v : Slot) : (s.setPixel x y v).out = s.out := rfl
@[simp] theorem State.setPixel_draw (s : State) (x y : Nat) (v : Slot) : (s.setPixel x y v).draw = s.draw := rfl
@[simp] theorem State.setPixel_fault (s : State) (x y : Nat) (v : Slot) : (s.setPixel x y v).fault = s.fault := rfl
@[simp] theorem State.setPixel_rdata (s : State) (x y : Nat) (v : Slot) : (s.setPixel x y v).rdata = s.rdata := rfl
@[simp] theorem State.setPixel_prog (s : State) (x y : Nat) (v : Slot) : (s.setPixel x y v).prog = s.prog := rfl
@[simp] theorem State.setPixel_hostNo (s : State) (x y : Nat) (v : Slot) : (s.setPixel x y v).hostNo = s.hostNo := rfl
@[simp] theorem State.setPixel_turns (s : State) (x y : Nat) (v : Slot) : (s.setPixel x y v).turns = s.turns := rfl
@[simp] theorem State.setPixel_turnNo (s : State) (x y : Nat) (v : Slot) : (s.setPixel x y v).turnNo = s.turnNo := rfl

/-! ### State.setCh: every field but the two channels -/

@[simp] theorem State.setCh_cfg (s : State) (h : Half) (c : Channel) : (s.setCh h c).cfg = s.cfg := by cases h <;> rfl
@[simp] theorem State.setCh_pf (s : State) (h : Half) (c : Channel) : (s.setCh h c).pf = s.pf := by cases h <;> rfl
@[simp] theorem State.setCh_sf (s : State) (h : Half) (c : Channel) : (s.setCh h c).sf = s.sf := by cases h <;> rfl
@[simp] theorem State.setCh_cyc (s : State) (h : Half) (c : Channel) : (s.setCh h c).cyc = s.cyc := by cases h <;> rfl
@[simp] theorem State.setCh_scn (s : State) (h : Half) (c : Channel) : (s.setCh h c).scn = s.scn := by cases h <;> rfl
@[simp] theorem State.setCh_ln0 (s : State) (h : Half) (c : Channel) : (s.setCh h c).ln0 = s.ln0 := by cases h <;> rfl
@[simp] theorem State.setCh_ln1 (s : State) (h : Half) (c : Channel) : (s.setCh h c).ln1 = s.ln1 := by cases h <;> rfl
@[simp] theorem State.setCh_enc (s : State) (h : Half) (c : Channel) : (s.setCh h c).enc = s.enc := by cases h <;> rfl
@[simp] theorem State.setCh_pixdata (s : State) (h : Half) (c : Channel) : (s.setCh h c).pixdata = s.pixdata := by cases h <;> rfl
@[simp] theorem State.setCh_out (s : State) (h : Half) (c : Channel) : (s.setCh h c).out = s.out := by cases h <;> rfl
@[simp] theorem State.setCh_draw (s : State) (h : Half) (c : Channel) : (s.setCh h c).draw = s.draw := by cases h <;> rfl
@[simp] theorem State.setCh_fault (s : State) (h : Half) (c : Channel) : (s.setCh h c).fault = s.fault := by cases h <;> rfl
@[simp] theorem State.setCh_rdata (s : State) (h : Half) (c : Channel) : (s.setCh h c).rdata = s.rdata := by cases h <;> rfl
@[simp] theorem State.setCh_prog (s : State) (h : Half) (c : Channel) : (s.setCh h c).prog = s.prog := by cases h <;> rfl
@[simp] theorem State.setCh_hostNo (s : State) (h : Half) (c : Channel) : (s.setCh h c).hostNo = s.hostNo := by cases h <;> rfl
@[simp] theorem State.setCh_turns (s : State) (h : Half) (c : Channel) : (s.setCh h c).turns = s.turns := by cases h <;> rfl
@[simp] theorem State.setCh_turnNo (s : State) (h : Half) (c : Channel) : (s.setCh h c).turnNo = s.turnNo := by cases h <;> rfl

/-! ### State.setLn: every field but the two lanes -/

@[simp] theorem State.setLn_cfg (s : State) (h : Half) (l : Lane) : (s.setLn h l).cfg = s.cfg := by cases h <;> rfl
@[simp] theorem State.setLn_pf (s : State) (h : Half) (l : Lane) : (s.setLn h l).pf = s.pf := by cases h <;> rfl
@[simp] theorem State.setLn_sf (s : State) (h : Half) (l : Lane) : (s.setLn h l).sf = s.sf := by cases h <;> rfl
@[simp] theorem State.setLn_cyc (s : State) (h : Half) (l : Lane) : (s.setLn h l).cyc = s.cyc := by cases h <;> rfl
@[simp] theorem State.setLn_scn (s : State) (h : Half) (l : Lane) : (s.setLn h l).scn = s.scn := by cases h <;> rfl
@[simp] theorem State.setLn_ch0 (s : State) (h : Half) (l : Lane) : (s.setLn h l).ch0 = s.ch0 := by cases h <;> rfl
@[simp] theorem State.setLn_ch1 (s : State) (h : Half) (l : Lane) : (s.setLn h l).ch1 = s.ch1 := by cases h <;> rfl
@[simp] theorem State.setLn_enc (s : State) (h : Half) (l : Lane) : (s.setLn h l).enc = s.enc := by cases h <;> rfl
@[simp] theorem State.setLn_pixdata (s : State) (h : Half) (l : Lane) : (s.setLn h l).pixdata = s.pixdata := by cases h <;> rfl
@[simp] theorem State.setLn_out (s : State) (h : Half) (l : Lane) : (s.setLn h l).out = s.out := by cases h <;> rfl
@[simp] theorem State.setLn_draw (s : State) (h : Half) (l : Lane) : (s.setLn h l).draw = s.draw := by cases h <;> rfl
@[simp] theorem State.setLn_fault (s : State) (h : Half) (l : Lane) : (s.setLn h l).fault = s.fault := by cases h <;> rfl
@[simp] theorem State.setLn_rdata (s : State) (h : Half) (l : Lane) : (s.setLn h l).rdata = s.rdata := by cases h <;> rfl
@[simp] theorem State.setLn_prog (s : State) (h : Half) (l : Lane) : (s.setLn h l).prog = s.prog := by cases h <;> rfl
@[simp] theorem State.setLn_hostNo (s : State) (h : Half) (l : Lane) : (s.setLn h l).hostNo = s.hostNo := by cases h <;> rfl
@[simp] theorem State.setLn_turns (s : State) (h : Half) (l : Lane) : (s.setLn h l).turns = s.turns := by cases h <;> rfl
@[simp] theorem State.setLn_turnNo (s : State) (h : Half) (l : Lane) : (s.setLn h l).turnNo = s.turnNo := by cases h <;> rfl

/-! ### State.powerOn -/

@[simp] theorem State.powerOn_cfg (s : State) : (s.powerOn).cfg = s.cfg := rfl
@[simp] theorem State.powerOn_pf (s : State) : (s.powerOn).pf = [] := rfl
@[simp] theorem State.powerOn_sf (s : State) : (s.powerOn).sf = { p0 := [], p1 := [], p2 := [], p3 := [] } := rfl
@[simp] theorem State.powerOn_cyc (s : State) : (s.powerOn).cyc = { index := 0, swapPending := false } := rfl
@[simp] theorem State.powerOn_scn (s : State) : (s.powerOn).scn = { run := false, irqPending := false } := rfl
@[simp] theorem State.powerOn_ch0 (s : State) : (s.powerOn).ch0 = { en := false, plane := 0, rdOff := 0, remaining := 0 } := rfl
@[simp] theorem State.powerOn_ch1 (s : State) : (s.powerOn).ch1 = { en := false, plane := 0, rdOff := 0, remaining := 0 } := rfl
@[simp] theorem State.powerOn_ln0 (s : State) : (s.powerOn).ln0 = { en := false, lines := 0, words := 0, rx := [] } := rfl
@[simp] theorem State.powerOn_ln1 (s : State) : (s.powerOn).ln1 = { en := false, lines := 0, words := 0, rx := [] } := rfl
@[simp] theorem State.powerOn_enc (s : State) : (s.powerOn).enc = { busy := false, thenSwap := false, todo := [] } := rfl
@[simp] theorem State.powerOn_pixdata (s : State) : (s.powerOn).pixdata = 0 := rfl
@[simp] theorem State.powerOn_out (s : State) : (s.powerOn).out = [] := rfl
@[simp] theorem State.powerOn_draw (s : State) : (s.powerOn).draw = s.draw + 1 := rfl
@[simp] theorem State.powerOn_fault (s : State) : (s.powerOn).fault = none := rfl
@[simp] theorem State.powerOn_rdata (s : State) : (s.powerOn).rdata = s.rdata := rfl
@[simp] theorem State.powerOn_prog (s : State) : (s.powerOn).prog = s.prog := rfl
@[simp] theorem State.powerOn_hostNo (s : State) : (s.powerOn).hostNo = s.hostNo := rfl
@[simp] theorem State.powerOn_turns (s : State) : (s.powerOn).turns = s.turns := rfl
@[simp] theorem State.powerOn_turnNo (s : State) : (s.powerOn).turnNo = s.turnNo := rfl

/-! ### State.resetWith -/

@[simp] theorem State.resetWith_cfg (c : Config) (d : Nat) : (State.resetWith c d).cfg = c := rfl
@[simp] theorem State.resetWith_pf (c : Config) (d : Nat) : (State.resetWith c d).pf = [] := rfl
@[simp] theorem State.resetWith_sf (c : Config) (d : Nat) : (State.resetWith c d).sf = { p0 := [], p1 := [], p2 := [], p3 := [] } := rfl
@[simp] theorem State.resetWith_cyc (c : Config) (d : Nat) : (State.resetWith c d).cyc = { index := 0, swapPending := false } := rfl
@[simp] theorem State.resetWith_scn (c : Config) (d : Nat) : (State.resetWith c d).scn = { run := false, irqPending := false } := rfl
@[simp] theorem State.resetWith_ch0 (c : Config) (d : Nat) : (State.resetWith c d).ch0 = { en := false, plane := 0, rdOff := 0, remaining := 0 } := rfl
@[simp] theorem State.resetWith_ch1 (c : Config) (d : Nat) : (State.resetWith c d).ch1 = { en := false, plane := 0, rdOff := 0, remaining := 0 } := rfl
@[simp] theorem State.resetWith_ln0 (c : Config) (d : Nat) : (State.resetWith c d).ln0 = { en := false, lines := 0, words := 0, rx := [] } := rfl
@[simp] theorem State.resetWith_ln1 (c : Config) (d : Nat) : (State.resetWith c d).ln1 = { en := false, lines := 0, words := 0, rx := [] } := rfl
@[simp] theorem State.resetWith_enc (c : Config) (d : Nat) : (State.resetWith c d).enc = { busy := false, thenSwap := false, todo := [] } := rfl
@[simp] theorem State.resetWith_pixdata (c : Config) (d : Nat) : (State.resetWith c d).pixdata = 0 := rfl
@[simp] theorem State.resetWith_out (c : Config) (d : Nat) : (State.resetWith c d).out = [] := rfl
@[simp] theorem State.resetWith_draw (c : Config) (d : Nat) : (State.resetWith c d).draw = d := rfl
@[simp] theorem State.resetWith_fault (c : Config) (d : Nat) : (State.resetWith c d).fault = none := rfl
@[simp] theorem State.resetWith_rdata (c : Config) (d : Nat) : (State.resetWith c d).rdata = 0 := rfl
@[simp] theorem State.resetWith_prog (c : Config) (d : Nat) : (State.resetWith c d).prog = [] := rfl
@[simp] theorem State.resetWith_hostNo (c : Config) (d : Nat) : (State.resetWith c d).hostNo = 0 := rfl
@[simp] theorem State.resetWith_turns (c : Config) (d : Nat) : (State.resetWith c d).turns = [] := rfl
@[simp] theorem State.resetWith_turnNo (c : Config) (d : Nat) : (State.resetWith c d).turnNo = 0 := rfl

/-! ### Channels and lanes by half, and the armed ones -/

theorem State.ch_setCh (s : State) (h g : Half) (c : Channel) :
    (s.setCh h c).ch g = if g = h then c else s.ch g := by cases h <;> cases g <;> rfl

@[simp] theorem State.ch_setCh_same (s : State) (h : Half) (c : Channel) : (s.setCh h c).ch h = c := by cases h <;> rfl

theorem State.ln_setLn (s : State) (h g : Half) (l : Lane) :
    (s.setLn h l).ln g = if g = h then l else s.ln g := by cases h <;> cases g <;> rfl

@[simp] theorem State.ln_setLn_same (s : State) (h : Half) (l : Lane) : (s.setLn h l).ln h = l := by cases h <;> rfl

@[simp] theorem State.ch_setLn (s : State) (h g : Half) (l : Lane) : (s.setLn h l).ch g = s.ch g := by
  cases h <;> cases g <;> rfl

@[simp] theorem State.ln_setCh (s : State) (h g : Half) (c : Channel) : (s.setCh h c).ln g = s.ln g := by
  cases h <;> cases g <;> rfl

@[simp] theorem State.ch_arm (s : State) (i : Slot) (h : Half) : (s.arm i).ch h = Channel.armed s.cfg i h := by
  cases h <;> rfl

@[simp] theorem State.ln_arm (s : State) (i : Slot) (h : Half) : (s.arm i).ln h = Lane.armed s.cfg := by
  cases h <;> rfl

@[simp] theorem Channel.armed_en (c : Config) (i : Slot) (h : Half) : (Channel.armed c i h).en = true := rfl
@[simp] theorem Channel.armed_plane (c : Config) (i : Slot) (h : Half) : (Channel.armed c i h).plane = i := rfl
@[simp] theorem Channel.armed_rdOff (c : Config) (i : Slot) (h : Half) : (Channel.armed c i h).rdOff = c.halfStart h := rfl
@[simp] theorem Channel.armed_remaining (c : Config) (i : Slot) (h : Half) :
    (Channel.armed c i h).remaining = c.halfWords := rfl
@[simp] theorem Lane.armed_en (c : Config) : (Lane.armed c).en = true := rfl
@[simp] theorem Lane.armed_lines (c : Config) : (Lane.armed c).lines = c.linesPerRefresh := rfl
@[simp] theorem Lane.armed_words (c : Config) : (Lane.armed c).words = c.wordsPerLine := rfl
@[simp] theorem Lane.armed_rx (c : Config) : (Lane.armed c).rx = [] := rfl

end Sys2Proof.Machine
end

