-- ==== Sys2Proof/Laws/Ops.lean ====
section
/-! SUPPORT. What the shared operations do to the bytes of PF and SF and to the encoder's work set. -/

namespace Sys2Proof.Machine

/-! ### Bytes depend on their memory and the draw alone -/

theorem State.pfByte_congr {s t : State} (h : t.pf = s.pf) (hd : t.draw = s.draw) : t.pfByte = s.pfByte := by
  funext a
  simp [State.pfByte, h, hd]

theorem State.sfByte_congr {s t : State} (h : t.sf = s.sf) (hd : t.draw = s.draw) : t.sfByte = s.sfByte := by
  funext k a
  simp [State.sfByte, h, hd]

theorem State.pfPix_congr {s t : State} (hc : t.cfg = s.cfg) (h : t.pf = s.pf) (hd : t.draw = s.draw) :
    t.pfPix = s.pfPix := by
  funext x y
  simp [State.pfPix, hc, State.pfByte_congr h hd]

theorem State.encByte_congr {s t : State} (hc : t.cfg = s.cfg) (h : t.pf = s.pf) (hd : t.draw = s.draw) :
    t.encByte = s.encByte := by
  funext k a
  simp [State.encByte, State.encBit, hc, State.pfPix_congr hc h hd]

/-- The bytes of plane stores after one byte of one plane is written. -/
theorem State.sfByte_writeSf (s : State) (k j : Slot) (a b : Nat) (v : Byte) :
    (s.writeSf k a v).sfByte j b = if j = k ∧ b = a then v else s.sfByte j b := by
  by_cases hj : j = k
  · subst hj
    by_cases hb : b = a
    · simp [State.sfByte, hb, Memory.read_write_same]
    · simp [State.sfByte, hb, Memory.read_write_ne _ _ hb]
  · simp [State.sfByte, hj, Planes.get_set_ne _ _ hj]

/-- The bytes of PF after a pixel is put: one byte changes (R121). -/
theorem State.pfByte_setPixel (s : State) (x y : Nat) (v : Slot) (b : Nat) :
    (s.setPixel x y v).pfByte b =
      if b = s.cfg.pfAddr x y then putField (s.pfByte b) (s.cfg.pfShift (x % 4)) v else s.pfByte b := by
  by_cases hb : b = s.cfg.pfAddr x y
  · subst hb
    simp only [State.pfByte, State.setPixel_pf, State.setPixel_draw, Memory.read_write_same, Option.getD_some, if_true]
  · simp only [State.pfByte, State.setPixel_pf, State.setPixel_draw, Memory.read_write_ne _ _ hb, if_neg hb]

/-! ### The encoder's work set -/

theorem mem_fullTodo {c : Config} {k : Slot} {a : Nat} : (k, a) ∈ fullTodo c ↔ a < c.planeBytes := by
  have := (by decide : ∀ k : Slot, k = 0 ∨ k = 1 ∨ k = 2 ∨ k = 3) k
  simp only [fullTodo, List.mem_flatMap, List.mem_map, List.mem_range, Prod.mk.injEq, List.mem_cons, List.not_mem_nil,
    or_false]
  constructor
  · rintro ⟨_, _, b, hb, _, rfl⟩
    exact hb
  · intro h
    exact ⟨k, this, a, h, rfl, rfl⟩

theorem fullTodo_length (c : Config) : (fullTodo c).length = 4 * c.planeBytes := by
  simp [fullTodo]
  omega

theorem fullTodo_rising (c : Config) :
    (fullTodo c).Pairwise fun p q => p.1.toNat < q.1.toNat ∨ (p.1 = q.1 ∧ p.2 < q.2) := by
  have one : ∀ k : Slot, ((List.range c.planeBytes).map fun a => (k, a)).Pairwise
      fun p q => p.1.toNat < q.1.toNat ∨ (p.1 = q.1 ∧ p.2 < q.2) := fun k =>
    List.pairwise_map.mpr (List.pairwise_lt_range.imp fun h => .inr ⟨rfl, h⟩)
  have cross : ∀ j k : Slot, j.toNat < k.toNat → ∀ p ∈ (List.range c.planeBytes).map (fun a => (j, a)),
      ∀ q ∈ (List.range c.planeBytes).map (fun a => (k, a)),
      p.1.toNat < q.1.toNat ∨ (p.1 = q.1 ∧ p.2 < q.2) := by
    intro j k h p hp q hq
    obtain ⟨_, _, rfl⟩ := List.mem_map.mp hp
    obtain ⟨_, _, rfl⟩ := List.mem_map.mp hq
    exact .inl h
  simp only [fullTodo, List.flatMap_cons, List.flatMap_nil, List.append_nil]
  refine List.pairwise_append.mpr ⟨one 0, List.pairwise_append.mpr ⟨one 1, List.pairwise_append.mpr
    ⟨one 2, one 3, cross 2 3 (by decide)⟩, ?_⟩, ?_⟩
  · intro p hp q hq
    rcases List.mem_append.mp hq with hq | hq
    · exact cross 1 2 (by decide) p hp q hq
    · exact cross 1 3 (by decide) p hp q hq
  · intro p hp q hq
    rcases List.mem_append.mp hq with hq | hq
    · exact cross 0 1 (by decide) p hp q hq
    · rcases List.mem_append.mp hq with hq | hq
      · exact cross 0 2 (by decide) p hp q hq
      · exact cross 0 3 (by decide) p hp q hq

/-- Everything `startRun` can answer (R145, R191). -/
theorem State.startRun_next {s t : State} {b : Bool} (h : s.startRun b = .next t) :
    (s.enc.busy = true ∧ t = s) ∨
    (s.enc.busy = false ∧ s.cyc.swapPending = false ∧
      t = { s.accept with enc := { busy := true, thenSwap := b, todo := fullTodo s.cfg } }) := by
  unfold State.startRun at h
  split at h
  · exact .inl ⟨‹_›, by simpa using h.symm⟩
  · split at h
    · cases h
    · exact .inr ⟨by simpa using ‹¬s.enc.busy = true›, by simpa using ‹¬s.cyc.swapPending = true›, by simpa using h.symm⟩

end Sys2Proof.Machine
end

