-- ==== Sys2Proof/Laws/Pixel.lean ====
section
/-! SUPPORT. Pixel fields, addresses, the fill byte and the bits of the encoder's byte. -/

namespace Sys2Proof

/-! ### Positions inside a byte -/

theorem Config.pfShift_cases (c : Config) {m : Nat} (h : m < 4) :
    c.pfShift m = 0 ∨ c.pfShift m = 2 ∨ c.pfShift m = 4 ∨ c.pfShift m = 6 := by
  unfold Config.pfShift
  split <;> omega

theorem Config.pfShift_inj (c : Config) {m n : Nat} (hm : m < 4) (hn : n < 4) (h : c.pfShift m = c.pfShift n) :
    m = n := by
  unfold Config.pfShift at h
  split at h <;> omega

theorem Config.sfBitPos_lt (c : Config) {j : Nat} (h : j < 8) : c.sfBitPos j < 8 := by
  unfold Config.sfBitPos
  split <;> omega

theorem Config.sfBitPos_inj (c : Config) {i j : Nat} (hi : i < 8) (hj : j < 8) (h : c.sfBitPos i = c.sfBitPos j) :
    i = j := by
  unfold Config.sfBitPos at h
  split at h <;> omega

theorem getField_putField_same (b : Byte) {m : Nat} (h : m = 0 ∨ m = 2 ∨ m = 4 ∨ m = 6) (v : Slot) :
    getField (putField b m v) m = v := by
  rcases h with rfl | rfl | rfl | rfl <;> ext i hi <;>
    (have : i = 0 ∨ i = 1 := by omega) <;> rcases this with rfl | rfl <;> simp [getField, putField]

theorem getField_putField_ne (b : Byte) {m n : Nat} (hm : m = 0 ∨ m = 2 ∨ m = 4 ∨ m = 6)
    (hn : n = 0 ∨ n = 2 ∨ n = 4 ∨ n = 6) (h : n ≠ m) (v : Slot) : getField (putField b m v) n = getField b n := by
  rcases hm with rfl | rfl | rfl | rfl <;> rcases hn with rfl | rfl | rfl | rfl <;>
    first
    | exact absurd rfl h
    | (ext i hi; (have : i = 0 ∨ i = 1 := by omega); rcases this with rfl | rfl <;> simp [getField, putField])

theorem getField_fillByte (v : Slot) {m : Nat} (h : m = 0 ∨ m = 2 ∨ m = 4 ∨ m = 6) : getField (fillByte v) m = v := by
  rcases h with rfl | rfl | rfl | rfl <;> revert v <;> decide

/-! ### Addresses -/

theorem Config.sfStride_pos {c : Config} (h : 1 ≤ c.width) : 0 < c.sfStride := by
  unfold Config.sfStride
  omega

theorem Config.pfAddr_lt {c : Config} {x y : Nat} (hx : x / 4 < c.pfStride) (hy : y < c.height) :
    c.pfAddr x y < c.pfBytes := by
  unfold Config.pfAddr Config.pfBytes
  calc y * c.pfStride + x / 4 < y * c.pfStride + c.pfStride := by omega
    _ = c.pfStride * (y + 1) := by ring
    _ ≤ c.pfStride * c.height := Nat.mul_le_mul_left _ hy

/-- A pixel in bounds lies in a byte of PF (R127). -/
theorem Config.pfAddr_lt_of_inBounds {c : Config} {x y : Nat} (hx : x < c.width) (hy : y < c.height) :
    c.pfAddr x y < c.pfBytes :=
  Config.pfAddr_lt (by unfold Config.pfStride; omega) hy

theorem Config.pfAddr_inj {c : Config} {x y u v : Nat} (hx : x / 4 < c.pfStride) (hu : u / 4 < c.pfStride)
    (h : c.pfAddr x y = c.pfAddr u v) : y = v ∧ x / 4 = u / 4 := by
  unfold Config.pfAddr at h
  have hpos : 0 < c.pfStride := by omega
  have hy : (y * c.pfStride + x / 4) / c.pfStride = y := by
    rw [Nat.add_comm, Nat.add_mul_div_right _ _ hpos, Nat.div_eq_of_lt hx, Nat.zero_add]
  have hv : (v * c.pfStride + u / 4) / c.pfStride = v := by
    rw [Nat.add_comm, Nat.add_mul_div_right _ _ hpos, Nat.div_eq_of_lt hu, Nat.zero_add]
  have : y = v := by rw [← hy, ← hv, h]
  subst this
  exact ⟨rfl, by omega⟩

theorem Config.sfAddr_lt {c : Config} {x y : Nat} (hx : x / 8 < c.sfStride) (hy : y < c.height) :
    c.sfAddr x y < c.planeBytes := by
  unfold Config.sfAddr Config.planeBytes
  calc y * c.sfStride + x / 8 < y * c.sfStride + c.sfStride := by omega
    _ = c.sfStride * (y + 1) := by ring
    _ ≤ c.sfStride * c.height := Nat.mul_le_mul_left _ hy

theorem Config.sfAddr_div {c : Config} {x y : Nat} (hx : x / 8 < c.sfStride) : c.sfAddr x y / c.sfStride = y := by
  unfold Config.sfAddr
  rw [Nat.add_comm, Nat.add_mul_div_right _ _ (by omega), Nat.div_eq_of_lt hx, Nat.zero_add]

theorem Config.sfAddr_mod {c : Config} {x y : Nat} (hx : x / 8 < c.sfStride) : c.sfAddr x y % c.sfStride = x / 8 := by
  unfold Config.sfAddr
  rw [Nat.add_comm, Nat.add_mul_mod_self_right, Nat.mod_eq_of_lt hx]

/-- HALF_WORDS words fill a half, which is not empty (R6). -/
theorem Config.halves {c : Config} (h : c.Ok) :
    4 * c.halfWords = c.halfBytes ∧ 2 * c.halfBytes = c.planeBytes ∧ 0 < c.halfWords := by
  obtain ⟨-, -, h8, ⟨hl, hw, hp⟩, -, -⟩ := h
  have hpos : 0 < c.halfWords := by rw [← hp]; exact Nat.mul_pos hl hw
  unfold Config.halfWords Config.halfBytes at *
  refine ⟨?_, ?_, hpos⟩ <;> omega

/-! ### The encoder's byte -/

/-- Bit i of a union of single bits set at positions p j. -/
theorem getLsbD_foldl_bits (f : Nat → Bool) (p : Nat → Nat) (n i : Nat) (hi : i < 8) :
    ((List.range n).foldl (fun (acc : Byte) j => acc ||| ((BitVec.ofBool (f j)).setWidth 8 <<< p j)) 0).getLsbD i =
      (List.range n).any fun j => f j && (p j == i) := by
  induction n with
  | zero => simp
  | succ n ih =>
    rw [List.range_succ, List.foldl_append, List.any_append, List.foldl_cons, List.foldl_nil, BitVec.getLsbD_or, ih]
    congr 1
    simp only [List.any_cons, List.any_nil, Bool.or_false, BitVec.getLsbD_shiftLeft, BitVec.getLsbD_setWidth,
      BitVec.getLsbD_ofBool]
    by_cases h : p n = i
    · subst h
      simp [hi]
    · have h2 : (p n == i) = false := by simpa using h
      rw [h2, Bool.and_false]
      by_cases h3 : i < p n
      · simp [h3]
      · have : ¬(i - p n = 0) := by omega
        simp [this]

/-- The bit the encoder puts for pixel column j of a plane byte (R142). -/
theorem Machine.State.encByte_bit (s : Machine.State) (k : Slot) (a : Nat) {j : Nat} (hj : j < 8) :
    (s.encByte k a).getLsbD (s.cfg.sfBitPos j) =
      s.encBit k (8 * (a % s.cfg.sfStride) + j) (a / s.cfg.sfStride) := by
  unfold Machine.State.encByte
  rw [getLsbD_foldl_bits _ _ _ _ (s.cfg.sfBitPos_lt hj)]
  rw [Bool.eq_iff_iff, List.any_eq_true]
  constructor
  · rintro ⟨i, hi, h⟩
    rw [Bool.and_eq_true, beq_iff_eq] at h
    have : i = j := s.cfg.sfBitPos_inj (List.mem_range.mp hi) hj h.2
    exact this ▸ h.1
  · intro h
    exact ⟨j, List.mem_range.mpr hj, by simp [h]⟩

end Sys2Proof
end

