-- ==== Sys2Proof/Laws/Bits.lean ====
section
/-! SUPPORT. Bits of the registers, of the encoder's bytes and of the HOST's write data. -/

namespace Sys2Proof

/-- A byte is known by its bits at the places of the eight pixels (R11). -/
theorem byte_ext_sfBitPos (c : Config) {b d : Byte}
    (h : ∀ j, j < 8 → b.getLsbD (c.sfBitPos j) = d.getLsbD (c.sfBitPos j)) : b = d := by
  apply BitVec.eq_of_getLsbD_eq
  intro i hi
  have h2 : c.sfBitPos (c.sfBitPos i) = i := by
    unfold Config.sfBitPos
    split <;> simp_all
    omega
  have := h (c.sfBitPos i) (c.sfBitPos_lt hi)
  simp_all

/-- The row of a plane offset is a row of the panel (R26). -/
theorem Config.row_lt {c : Config} {a : Nat} (h : a < c.planeBytes) : a / c.sfStride < c.height :=
  Nat.div_lt_of_lt_mul h

@[simp] theorem widthOfBytes_bytes (n : Width) : widthOfBytes n.bytes = some n := by cases n <;> rfl

theorem widthOfBytes_none {w : Nat} (h : ∀ n : Width, w ≠ n.bytes) : widthOfBytes w = none := by
  have h1 := h .w1
  have h2 := h .w2
  have h3 := h .w4
  simp only [Width.bytes] at *
  unfold widthOfBytes
  split <;> simp_all

theorem Width.bytes_le (n : Width) : n.bytes ≤ 4 := by cases n <;> decide

theorem Width.bytes_pos (n : Width) : 0 < n.bytes := by cases n <;> decide

/-- Masking a PF window write's data to its width leaves the bytes it stores (R125). -/
theorem maskedData_byte (n : Width) (data : Word) {i : Nat} (hi : i < n.bytes) :
    (data &&& BitVec.ofNat 32 (2 ^ (8 * n.bytes) - 1)).extractLsb' (8 * i) 8 = data.extractLsb' (8 * i) 8 := by
  refine extract_eq fun j hj => ?_
  have hb := n.bytes_le
  rw [BitVec.getLsbD_and, BitVec.getLsbD_ofNat, Nat.testBit_two_pow_sub_one, BitVec.getLsbD_extractLsb']
  have h1 : 8 * i + j < 32 := by omega
  have h2 : 8 * i + j < 8 * n.bytes := by omega
  simp [h1, h2, hj]

/-- The STATUS register, bit by bit (R38, R192). -/
theorem Machine.State.status_getLsbD (s : Machine.State) (i : Nat) :
    s.status.getLsbD i =
      if i < 2 then s.cyc.index.getLsbD i
      else if i = 2 then s.cyc.swapPending
      else if i = 3 then s.enc.busy
      else if i = 4 then s.scn.run
      else if i = 5 then s.scn.irqPending
      else false := by
  have h : s.status.getLsbD i = (((((0#26 ++ BitVec.ofBool s.scn.irqPending) ++ BitVec.ofBool s.scn.run)
    ++ BitVec.ofBool s.enc.busy) ++ BitVec.ofBool s.cyc.swapPending) ++ s.cyc.index).getLsbD i := rfl
  rw [h]
  simp only [BitVec.getLsbD_append, BitVec.getLsbD_ofBool]
  by_cases h0 : i < 2
  · simp [h0]
  · obtain rfl | rfl | rfl | rfl | h6 : i = 2 ∨ i = 3 ∨ i = 4 ∨ i = 5 ∨ 6 ≤ i := by omega
    · simp
    · simp
    · simp
    · simp
    · have a1 : ¬i - 2 < 1 := by omega
      have a2 : ¬i - 2 - 1 < 1 := by omega
      have a3 : ¬i - 2 - 1 - 1 < 1 := by omega
      have a4 : ¬i - 2 - 1 - 1 - 1 < 1 := by omega
      obtain ⟨b2, b3, b4, b5⟩ : i ≠ 2 ∧ i ≠ 3 ∧ i ≠ 4 ∧ i ≠ 5 := by omega
      rw [if_neg h0, if_neg a1, if_neg a2, if_neg a3, if_neg a4, if_neg h0, if_neg b2, if_neg b3, if_neg b4,
        if_neg b5]
      simp

end Sys2Proof
end

