-- ==== Sys2Proof/Laws/Exec.lean ====
section
/-! SUPPORT. One inversion lemma per meaning: everything it can answer when it answers a next state. -/

namespace Sys2Proof.Machine

theorem execSetpix_next {x y : BitVec 12} {l : BitVec 4} {s t : State} (h : execSetpix x y l s = .next t) :
    (s.enc.busy = true ∧ t = s) ∨
    (s.enc.busy = false ∧ s.cfg.inBounds x.toInt y.toInt ∧
      t = (s.setPixel x.toInt.toNat y.toInt.toNat (clampLevel l)).accept) ∨
    (s.enc.busy = false ∧ ¬s.cfg.inBounds x.toInt y.toInt ∧ t = s.accept) := by
  unfold execSetpix at h
  split at h
  · exact .inl ⟨‹_›, by simpa using h.symm⟩
  · split at h
    · exact .inr (.inl ⟨by simpa using ‹¬s.enc.busy = true›, ‹_›, by simpa using h.symm⟩)
    · exact .inr (.inr ⟨by simpa using ‹¬s.enc.busy = true›, ‹_›, by simpa using h.symm⟩)

theorem execGetpix_next {x y : BitVec 12} {s t : State} (h : execGetpix x y s = .next t) :
    (s.enc.busy = true ∧ t = s) ∨
    (s.enc.busy = false ∧ ∃ v, t = { s.accept with pixdata := v }) := by
  unfold execGetpix at h
  split at h
  · exact .inl ⟨‹_›, by simpa using h.symm⟩
  · have hb : s.enc.busy = false := by simpa using ‹¬s.enc.busy = true›
    split at h <;> exact .inr ⟨hb, _, by simpa using h.symm⟩

theorem execClear_next {l : BitVec 4} {s t : State} (h : execClear l s = .next t) :
    (s.enc.busy = true ∧ t = s) ∨
    (s.enc.busy = false ∧ t = { s.accept with pf := Memory.fill s.pf s.cfg.pfBytes (fillByte (clampLevel l)) }) := by
  unfold execClear at h
  split at h
  · exact .inl ⟨‹_›, by simpa using h.symm⟩
  · exact .inr ⟨by simpa using ‹¬s.enc.busy = true›, by simpa using h.symm⟩

theorem execPfrd_next {n : Width} {a : Nat} {s t : State} (h : execPfrd n a s = .next t) :
    (s.enc.busy = true ∧ t = s) ∨
    (s.enc.busy = false ∧ s.cfg.windowOk n a ∧ t = s.answer (readLE s.pfByte a n.bytes)) := by
  unfold execPfrd at h
  split at h
  · split at h
    · exact .inl ⟨‹_›, by simpa using h.symm⟩
    · exact .inr ⟨by simpa using ‹¬s.enc.busy = true›, ‹_›, by simpa using h.symm⟩
  · cases h

theorem execPfwr_next {n : Width} {a : Nat} {v : Word} {s t : State} (h : execPfwr n a v s = .next t) :
    (s.enc.busy = true ∧ t = s) ∨
    (s.enc.busy = false ∧ s.cfg.windowOk n a ∧ t = { s.accept with pf := Memory.writeLE s.pf a n.bytes v }) := by
  unfold execPfwr at h
  split at h
  · split at h
    · exact .inl ⟨‹_›, by simpa using h.symm⟩
    · exact .inr ⟨by simpa using ‹¬s.enc.busy = true›, ‹_›, by simpa using h.symm⟩
  · cases h

theorem execStart_next {s t : State} (h : execStart s = .next t) :
    (s.enc.busy = true ∧ t = s) ∨
    (s.enc.busy = false ∧ s.scn.run = true ∧ t = s.accept) ∨
    (s.enc.busy = false ∧ s.scn.run = false ∧
      t = { (s.accept.arm 0) with cyc := { s.cyc with index := 0 }, scn := { s.scn with run := true } }) := by
  unfold execStart at h
  split at h
  · exact .inl ⟨‹_›, by simpa using h.symm⟩
  · have hb : s.enc.busy = false := by simpa using ‹¬s.enc.busy = true›
    split at h
    · exact .inr (.inl ⟨hb, ‹_›, by simpa using h.symm⟩)
    · exact .inr (.inr ⟨hb, by simpa using ‹¬s.scn.run = true›, by simpa using h.symm⟩)

theorem execSwapreq_next {s t : State} (h : execSwapreq s = .next t) :
    (s.enc.busy = true ∧ t = s) ∨
    (s.enc.busy = false ∧ s.cyc.swapPending = false ∧
      t = { s.accept with cyc := { s.cyc with swapPending := true } }) := by
  unfold execSwapreq at h
  split at h
  · exact .inl ⟨‹_›, by simpa using h.symm⟩
  · split at h
    · cases h
    · exact .inr ⟨by simpa using ‹¬s.enc.busy = true›, by simpa using ‹¬s.cyc.swapPending = true›,
        by simpa using h.symm⟩

theorem execEncstep_next {k : Slot} {a : Nat} {s t : State} (h : execEncstep k a s = .next t) :
    (¬s.encStepEnabled k a ∧ t = s) ∨
    (s.encStepEnabled k a ∧ a < s.cfg.planeBytes ∧
      t = { s.writeSf k a (s.encByte k a) with enc := { s.enc with todo := s.enc.todo.filter (· ≠ (k, a)) } }) := by
  unfold execEncstep at h
  split at h
  · split at h
    · exact .inr ⟨‹_›, ‹_›, by simpa using h.symm⟩
    · cases h
  · exact .inl ⟨‹_›, by simpa using h.symm⟩

theorem execEncdone_next {s t : State} (h : execEncdone s = .next t) :
    (¬s.encDoneEnabled ∧ t = s) ∨
    (s.encDoneEnabled ∧
      t = { s with cyc := { s.cyc with swapPending := s.enc.thenSwap || s.cyc.swapPending },
                   enc := { s.enc with busy := false, thenSwap := false } }) := by
  unfold execEncdone at h
  split at h
  · exact .inr ⟨‹_›, by simpa using h.symm⟩
  · exact .inl ⟨‹_›, by simpa using h.symm⟩

theorem execXfer_next {g : Half} {s t : State} (h : execXfer g s = .next t) :
    (¬s.xferEnabled g ∧ t = s) ∨
    (s.xferEnabled g ∧ (s.ch g).rdOff + 4 ≤ s.cfg.planeBytes ∧
      t = (s.setLn g { s.ln g with
            rx := (s.ln g).rx ++ [readLE (s.sfByte (s.ch g).plane) (s.ch g).rdOff 4] }).setCh g (s.ch g).advance) := by
  unfold execXfer at h
  split at h
  · simp only at h
    split at h
    · exact .inr ⟨‹_›, ‹_›, by simpa using h.symm⟩
    · cases h
  · exact .inl ⟨‹_›, by simpa using h.symm⟩

theorem execRefdone_next {s t : State} (h : execRefdone s = .next t) :
    (¬s.refDoneEnabled ∧ t = s) ∨
    (s.refDoneEnabled ∧
      t = { s with out := s.out ++ [{ index := s.cyc.index, rx0 := s.ln0.rx, rx1 := s.ln1.rx }],
                   scn := { s.scn with irqPending := true } }) := by
  unfold execRefdone at h
  split at h
  · exact .inr ⟨‹_›, by simpa using h.symm⟩
  · exact .inl ⟨‹_›, by simpa using h.symm⟩

theorem execTick_next {s t : State} (h : execTick s = .next t) :
    (¬s.tickEnabled ∧ t = s) ∨
    (s.tickEnabled ∧
      t = { (s.arm (s.cyc.index + 1)) with
            cyc := { index := s.cyc.index + 1, swapPending := swapAfterTick (s.cyc.index + 1) s.cyc.swapPending },
            scn := { s.scn with irqPending := false } }) := by
  unfold execTick at h
  split at h
  · exact .inr ⟨‹_›, by simpa using h.symm⟩
  · exact .inl ⟨‹_›, by simpa using h.symm⟩

/-- The one fault of the HOST's operations, and when (R145, R190, R191, R213). -/
theorem exec_hostOp_fault {i : Instr} {s : State} {r : Fault} (hi : i.isHostOp = true) (h : exec i s = .fault r) :
    r = .swapOverlap ∧ (i = .encode ∨ i = .updswap ∨ i = .swapreq) ∧ s.enc.busy = false ∧ s.cyc.swapPending = true := by
  have key : ∀ {c d : Bool} {x : State}, (if c then Host.Outcome.next s else if d then .fault Fault.swapOverlap else .next x)
      = (Host.Outcome.fault r : Answer) → r = .swapOverlap ∧ c = false ∧ d = true := by
    intro c d x h
    cases c <;> cases d <;> simp_all
  cases i with
  | setpix x y l =>
    change execSetpix _ _ _ _ = _ at h
    unfold execSetpix at h
    split at h <;> [cases h; (split at h <;> cases h)]
  | getpix x y =>
    change execGetpix _ _ _ = _ at h
    unfold execGetpix at h
    split at h <;> [cases h; (split at h <;> cases h)]
  | clear l =>
    change execClear _ _ = _ at h
    unfold execClear at h
    split at h <;> cases h
  | encode =>
    obtain ⟨hr, hb, hp⟩ := key h
    exact ⟨hr, .inl rfl, hb, hp⟩
  | updswap =>
    obtain ⟨hr, hb, hp⟩ := key h
    exact ⟨hr, .inr (.inl rfl), hb, hp⟩
  | swapreq =>
    obtain ⟨hr, hb, hp⟩ := key h
    exact ⟨hr, .inr (.inr rfl), hb, hp⟩
  | start =>
    change execStart _ = _ at h
    unfold execStart at h
    split at h <;> [cases h; (split at h <;> cases h)]
  | reserved0 p => cases h
  | reserved8F p => cases h
  | rdstatus => cases h
  | rdpixdata => cases h
  | pfrd n a =>
    change execPfrd _ _ _ = _ at h
    unfold execPfrd at h
    split at h <;> [(split at h <;> cases h); cases h]
  | pfwr n a v =>
    change execPfwr _ _ _ _ = _ at h
    unfold execPfwr at h
    split at h <;> [(split at h <;> cases h); cases h]
  | encstep k a => cases hi
  | encdone => cases hi
  | xfer g => cases hi
  | refdone => cases hi
  | tick => cases hi

end Sys2Proof.Machine
end

