-- ==== Sys2Proof/Laws/Frame.lean ====
section
/-! SUPPORT. The frame of every operation at once: which fields an operation that answers a next state may change. -/

namespace Sys2Proof.Machine

/-- The operations that store in PF (R68). -/
def storesPf : Instr → Bool
  | .setpix _ _ _ => true
  | .clear _ => true
  | .pfwr _ _ _ => true
  | _ => false

/-- The operations that store in SF (R68). -/
def storesSf : Instr → Bool
  | .encstep _ _ => true
  | _ => false

/-- Every field an operation leaves alone, unless it is one of those named (R23, R68, R225). -/
theorem exec_frame {i : Instr} {s t : State} (h : exec i s = .next t) :
    t.cfg = s.cfg ∧ t.draw = s.draw ∧ t.fault = s.fault ∧ t.turns = s.turns ∧ t.turnNo = s.turnNo ∧
    (storesPf i = false → t.pf = s.pf) ∧ (storesSf i = false → t.sf = s.sf) ∧
    (i ≠ .refdone → t.out = s.out) ∧ ((∀ x y, i ≠ .getpix x y) → t.pixdata = s.pixdata) := by
  cases i with
  | setpix x y l =>
    rcases execSetpix_next h with ⟨-, rfl⟩ | ⟨-, -, rfl⟩ | ⟨-, -, rfl⟩ <;> simp [storesPf]
  | getpix x y =>
    rcases execGetpix_next h with ⟨-, rfl⟩ | ⟨-, v, rfl⟩ <;> simp
  | clear l =>
    rcases execClear_next h with ⟨-, rfl⟩ | ⟨-, rfl⟩ <;> simp [storesPf]
  | encode =>
    rcases State.startRun_next h with ⟨-, rfl⟩ | ⟨-, -, rfl⟩ <;> simp
  | swapreq =>
    rcases execSwapreq_next h with ⟨-, rfl⟩ | ⟨-, -, rfl⟩ <;> simp
  | updswap =>
    rcases State.startRun_next h with ⟨-, rfl⟩ | ⟨-, -, rfl⟩ <;> simp
  | start =>
    rcases execStart_next h with ⟨-, rfl⟩ | ⟨-, -, rfl⟩ | ⟨-, -, rfl⟩ <;> simp
  | reserved0 p => cases h
  | reserved8F p => cases h
  | rdstatus => cases h; simp
  | rdpixdata => cases h; simp
  | pfrd n a =>
    rcases execPfrd_next h with ⟨-, rfl⟩ | ⟨-, -, rfl⟩ <;> simp
  | pfwr n a v =>
    rcases execPfwr_next h with ⟨-, rfl⟩ | ⟨-, -, rfl⟩ <;> simp [storesPf]
  | encstep k a =>
    rcases execEncstep_next h with ⟨-, rfl⟩ | ⟨-, -, rfl⟩ <;> simp [storesSf]
  | encdone =>
    rcases execEncdone_next h with ⟨-, rfl⟩ | ⟨-, rfl⟩ <;> simp
  | xfer g =>
    rcases execXfer_next h with ⟨-, rfl⟩ | ⟨-, -, rfl⟩ <;> simp
  | refdone =>
    rcases execRefdone_next h with ⟨-, rfl⟩ | ⟨-, rfl⟩ <;> simp
  | tick =>
    rcases execTick_next h with ⟨-, rfl⟩ | ⟨-, rfl⟩ <;> simp

end Sys2Proof.Machine
end

