-- ==== Sys2Proof/Laws/PerInstr.lean ====
section
/-! SUPPORT. What holds of every operation as syntax, one lemma per constructor of Instr: the family CommandWord. -/

namespace Sys2Proof.Laws.CommandWord

/-- The mask and the match of an operation's row in the opcode table (R94, R96); none for a row without a command word
(R99, R100). -/
def row : Instr → Option (Word × Word)
  | .setpix _ _ _ => some (0xF0000000, 0x10000000)
  | .getpix _ _ => some (0xF0000000, 0x20000000)
  | .clear _ => some (0xF0000000, 0x30000000)
  | .encode => some (0xF0000000, 0x40000000)
  | .swapreq => some (0xF0000000, 0x50000000)
  | .updswap => some (0xF0000000, 0x60000000)
  | .start => some (0xF0000000, 0x70000000)
  | .reserved0 _ => some (0xF0000000, 0x00000000)
  | .reserved8F _ => some (0x80000000, 0x80000000)
  | .rdstatus => none
  | .rdpixdata => none
  | .pfrd _ _ => none
  | .pfwr _ _ _ => none
  | .encstep _ _ => none
  | .encdone => none
  | .xfer _ => none
  | .refdone => none
  | .tick => none

/-- An operation has a command word exactly if its row has a mask and a match, and the word then lies in its row. -/
def Statement (i : Instr) : Prop :=
  match row i with
  | some r => ∃ w, encode i = some w ∧ w &&& r.1 = r.2
  | none => encode i = none

/-- The word of an opcode lies in the row of that opcode, whatever its fields. -/
theorem commandWord_masked (op l : BitVec 4) (y x : BitVec 12) :
    commandWord op l y x &&& 0xF0000000 = commandWord op 0 0 0 := by
  apply BitVec.eq_of_getLsbD_eq
  intro i hi
  rw [BitVec.getLsbD_and, commandWord_getLsbD, commandWord_getLsbD]
  by_cases h : i < 28
  · have h0 : (0xF0000000 : Word).getLsbD i = false := by revert h; revert i; decide
    rw [h0, Bool.and_false]
    split
    · simp
    · split
      · simp
      · rw [if_pos (by omega)]
        simp
  · have h1 : (0xF0000000 : Word).getLsbD i = true := by revert h hi; revert i; decide
    rw [h1, Bool.and_true, if_neg (by omega), if_neg (by omega), if_neg (by omega), if_neg (by omega),
      if_neg (by omega), if_neg (by omega)]

theorem setpix (x y : BitVec 12) (level : BitVec 4) : Statement (.setpix x y level) :=
  ⟨_, rfl, commandWord_masked 1 level y x⟩

theorem getpix (x y : BitVec 12) : Statement (.getpix x y) := ⟨_, rfl, commandWord_masked 2 0 y x⟩

theorem clear (level : BitVec 4) : Statement (.clear level) := ⟨_, rfl, commandWord_masked 3 level 0 0⟩

theorem encode : Statement .encode := ⟨_, rfl, commandWord_masked 4 0 0 0⟩

theorem swapreq : Statement .swapreq := ⟨_, rfl, commandWord_masked 5 0 0 0⟩

theorem updswap : Statement .updswap := ⟨_, rfl, commandWord_masked 6 0 0 0⟩

theorem start : Statement .start := ⟨_, rfl, commandWord_masked 7 0 0 0⟩

theorem reserved0 (payload : BitVec 28) : Statement (.reserved0 payload) := by
  refine ⟨_, rfl, ?_⟩
  apply BitVec.eq_of_getLsbD_eq
  intro i hi
  rw [BitVec.getLsbD_and, reserved0_getLsbD]
  by_cases h : i < 28
  · have h0 : (0xF0000000 : Word).getLsbD i = false := by revert h; revert i; decide
    change _ = (0#32).getLsbD i
    rw [h0, Bool.and_false, BitVec.getLsbD_zero]
  · change _ = (0#32).getLsbD i
    rw [if_neg h, BitVec.getLsbD_zero, BitVec.getLsbD_zero, Bool.false_and]

theorem reserved8F (payload : BitVec 31) : Statement (.reserved8F payload) := by
  refine ⟨_, rfl, ?_⟩
  apply BitVec.eq_of_getLsbD_eq
  intro i hi
  rw [BitVec.getLsbD_and, reserved8F_getLsbD]
  by_cases h : i < 31
  · have h0 : (0x80000000 : Word).getLsbD i = false := by revert h; revert i; decide
    rw [h0, Bool.and_false]
  · obtain rfl : i = 31 := by omega
    rw [if_neg h]
    rfl

theorem rdstatus : Statement .rdstatus := rfl

theorem rdpixdata : Statement .rdpixdata := rfl

theorem pfrd (n : Width) (a : Nat) : Statement (.pfrd n a) := rfl

theorem pfwr (n : Width) (a : Nat) (v : Word) : Statement (.pfwr n a v) := rfl

theorem encstep (k : Slot) (a : Nat) : Statement (.encstep k a) := rfl

theorem encdone : Statement .encdone := rfl

theorem xfer (h : Half) : Statement (.xfer h) := rfl

theorem refdone : Statement .refdone := rfl

theorem tick : Statement .tick := rfl

end Sys2Proof.Laws.CommandWord
end

