-- ==== Sys2Proof/Laws/Step.lean ====
section
/-! SUPPORT. What one step can do, said once: the inversion of step, and how to lift a property of every operation to it. -/

namespace Sys2Proof

/-- A bus access selects only operations of the HOST (R99, R100). -/
theorem decodeCommand_isHostOp (w : Word) : (decodeCommand w).isHostOp = true := by
  unfold decodeCommand
  split <;> rfl

theorem decodeAccess_isHostOp {c : Config} {b : BusAccess} {i : Instr} (h : decodeAccess c b = .op i) :
    i.isHostOp = true := by
  cases b with
  | read addr width =>
    simp only [decodeAccess] at h
    split at h
    · split at h
      · unfold selectRegRead at h
        split at h <;> first | (cases h; rfl) | cases h
      · cases h
    · split at h
      · unfold selectWindow at h
        split at h
        · split at h
          · cases h; rfl
          · cases h
        · cases h
      · cases h
  | write addr width data =>
    simp only [decodeAccess] at h
    split at h
    · split at h
      · unfold selectRegWrite at h
        split at h
        · cases h; exact decodeCommand_isHostOp data
        · cases h
        · cases h
        · cases h
      · cases h
    · split at h
      · unfold selectWindow at h
        split at h
        · split at h
          · cases h; rfl
          · cases h
        · cases h
      · cases h

namespace Machine

@[simp] theorem State.block_block (s : State) : s.block.block = s.block := rfl
@[simp] theorem State.endTurn_block (s : State) : s.endTurn.block = s.block := rfl
@[simp] theorem State.accept_block (s : State) : s.accept.block = s.block := rfl
@[simp] theorem State.answer_block (s : State) (v : Word) : (s.answer v).block = s.block := rfl

/-- Two states with the same block agree on every field of the block. -/
theorem State.fields_of_block {s t : State} (h : t.block = s.block) :
    t.cfg = s.cfg ∧ t.pf = s.pf ∧ t.sf = s.sf ∧ t.cyc = s.cyc ∧ t.scn = s.scn ∧ t.ch0 = s.ch0 ∧ t.ch1 = s.ch1 ∧
      t.ln0 = s.ln0 ∧ t.ln1 = s.ln1 ∧ t.enc = s.enc ∧ t.pixdata = s.pixdata ∧ t.out = s.out ∧ t.draw = s.draw ∧ t.fault = s.fault := by
  simpa only [State.block, State.mk.injEq, and_true, true_and, and_assoc] using h

/-- Two states with the same block differ in the HOST's side and the schedule alone. -/
theorem State.eq_of_block {s t : State} (h : t.block = s.block) :
    ∃ r p n u v, t = { s with rdata := r, prog := p, hostNo := n, turns := u, turnNo := v } := by
  have := State.fields_of_block h
  refine ⟨t.rdata, t.prog, t.hostNo, t.turns, t.turnNo, ?_⟩
  cases s
  cases t
  simp_all

/-- An agent's step is none of the HOST's operations. -/
theorem agentStep_not_hostOp {u : Turn} {i : Instr} (h : u.agentStep = some i) : i.isHostOp = false := by
  cases u <;> simp only [Turn.agentStep, reduceCtorEq, Option.some.injEq] at h <;> subst h <;> rfl

/-- A step is taken only in a well-formed configuration and with no fault recorded, a reset apart, and is the next turn
(R6, R70, R194). -/
theorem step_next {s t : State} (h : step s = .next t) :
    s.cfg.Ok ∧ s.live ∧ runTurn s.turn s.endTurn = .next t := by
  unfold step takeTurn at h
  split at h
  · split at h
    · exact ⟨‹_›, .inl ‹_›, h⟩
    · split at h
      · rename_i ht
        rw [ht]
        exact ⟨‹_›, .inr ht, h⟩
      · cases h
  · cases h

/-- A live state of a well-formed configuration takes its turn. -/
theorem step_eq {s : State} (hok : s.cfg.Ok) (h : s.live) : step s = runTurn s.turn s.endTurn := by
  unfold step takeTurn
  rw [if_pos hok]
  split
  · rfl
  · rcases h with h | h
    · simp_all
    · rw [if_pos h, h]

/-- A recorded fault answers every turn but a reset (R194, U1). -/
theorem step_recorded {s : State} {r : Fault} (hok : s.cfg.Ok) (hf : s.fault = some r) (ht : s.turn ≠ .reset) :
    step s = .fault r := by
  unfold step takeTurn
  rw [if_pos hok, hf]
  exact if_neg ht

/-- What an answer of the HOST's operation becomes, when it is a next state. -/
theorem recording_next {s t : State} {a : Answer} (h : recording s a = .next t) :
    a = .next t ∨ ∃ r, a = .fault r ∧ t = s.recordFault r := by
  unfold recording at h
  split at h
  · exact .inl h
  · exact .inr ⟨_, rfl, by cases h; rfl⟩
  · cases h

/-- Everything an access of the HOST's can do when it answers a next state. -/
theorem runAccess_next {b : BusAccess} {s t : State} (h : runAccess b s = .next t) :
    (t = s ∧ s.enc.busy = true ∧ ∃ i, decodeAccess s.cfg b = .op i ∧ heldAtPort i = true) ∨
    (∃ i, decodeAccess s.cfg b = .op i ∧ (heldAtPort i = true → s.enc.busy = false) ∧
      (exec i s = .next t ∨ ∃ r, exec i s = .fault r ∧ t = s.recordFault r)) ∨
    t = s.answer 0 ∨ t = s.accept := by
  unfold runAccess at h
  split at h
  · rename_i i hi
    split at h
    · rename_i hh
      exact .inl ⟨by cases h; rfl, hh.2, i, hi, hh.1⟩
    · rename_i hn
      exact .inr (.inl ⟨i, hi, fun hh => by simpa [hh] using hn, recording_next h⟩)
  · exact .inr (.inr (.inl (by cases h; rfl)))
  · exact .inr (.inr (.inr (by cases h; rfl)))
  · cases h

/-- RDSTATUS's access is selected where REG_BASE is a multiple of 4, and refused elsewhere (R66, R99; log 18). -/
theorem decodeAccess_status {c : Config} (hok : c.Ok) :
    decodeAccess c (statusAccess c) = if c.regBase % 4 = 0 then .op .rdstatus else .bad := by
  have hin : c.inRegs (c.regBase + 4) := ⟨by omega, by have := hok.2.2.2.2.1; omega⟩
  have hoff : c.regBase + 4 - c.regBase = 4 := by omega
  simp only [statusAccess, decodeAccess, if_pos hin, regAccess, hoff]
  by_cases h : c.regBase % 4 = 0
  · rw [if_pos h, if_pos ⟨trivial, by omega⟩]
    rfl
  · rw [if_neg h, if_neg (by omega)]

/-- Everything one iteration of WAITSWAP can do when it answers a next state (R193; logs 17 and 18). -/
theorem runWaitSwap_next {s t : State} (hok : s.cfg.Ok) (h : runWaitSwap s = .next t) :
    (s.enc.busy = true ∧ t = s) ∨
    (s.enc.busy = false ∧ s.cyc.swapPending = true ∧ t = { s with rdata := s.status }) ∨
    (s.enc.busy = false ∧ s.cyc.swapPending = false ∧ t = s.answer s.status) := by
  unfold runWaitSwap at h
  split at h
  · exact .inl ⟨‹_›, by cases h; rfl⟩
  · have hb : s.enc.busy = false := by simpa using ‹¬s.enc.busy = true›
    have hst : (s.answer s.status).rdata.getLsbD 2 = s.cyc.swapPending := by
      rw [State.answer_rdata, State.status_getLsbD]
      rfl
    by_cases hr : s.cfg.regBase % 4 = 0
    · have : runAccess (statusAccess s.cfg) s = .next (s.answer s.status) := by
        unfold runAccess
        rw [decodeAccess_status hok, if_pos hr]
        rfl
      rw [this] at h
      simp only [hst] at h
      cases hp : s.cyc.swapPending <;> rw [hp] at h
      · exact .inr (.inr ⟨hb, rfl, by cases h; rfl⟩)
      · exact .inr (.inl ⟨hb, rfl, by cases h; rfl⟩)
    · have : runAccess (statusAccess s.cfg) s = .refused .badAccess := by
        unfold runAccess
        rw [decodeAccess_status hok, if_neg hr]
      rw [this] at h
      cases h

/-- What the HOST's turn can do to the block: nothing, one operation of the HOST's, or the recording of a fault. -/
theorem runHost_block {s t : State} (hok : s.cfg.Ok) (h : runHost s = .next t) :
    t.block = s.block ∨
    ∃ i b, s.item = .access b ∧ decodeAccess s.cfg b = .op i ∧ (heldAtPort i = true → s.enc.busy = false) ∧
      (exec i s = .next t ∨ ∃ r, exec i s = .fault r ∧ t = s.recordFault r) := by
  unfold runHost at h
  split at h
  · rename_i b hb
    rcases runAccess_next h with ⟨rfl, -⟩ | ⟨i, hi, hh, he⟩ | rfl | rfl
    · exact .inl rfl
    · exact .inr ⟨i, b, hb, hi, hh, he⟩
    · exact .inl rfl
    · exact .inl rfl
  · rcases runWaitSwap_next hok h with ⟨-, rfl⟩ | ⟨-, -, rfl⟩ | ⟨-, -, rfl⟩ <;> exact .inl rfl

/-- What one step can do to the block (R70, R240): nothing, one operation of the agent whose turn it is, a reset, or, on the
HOST's turn, the recording of an overlapping swap request (R213). -/
theorem step_block {s t : State} (h : step s = .next t) :
    s.cfg.Ok ∧
    (t.block = s.block ∨
     (∃ i u, (s.turn = .host ∧ i.isHostOp = true ∧ (heldAtPort i = true → s.enc.busy = false) ∨
          s.turn.agentStep = some i) ∧
        exec i s.endTurn = .next u ∧ t.block = u.block) ∨
     (s.turn = .reset ∧ t = s.endTurn.powerOn) ∨
     (s.turn = .host ∧ s.enc.busy = false ∧ s.cyc.swapPending = true ∧ t = s.endTurn.recordFault .swapOverlap)) := by
  obtain ⟨hok, -, h⟩ := step_next h
  refine ⟨hok, ?_⟩
  unfold runTurn at h
  split at h
  · rename_i ht
    rcases runHost_block (s := s.endTurn) hok h with hb | ⟨i, b, -, hi, hh, he | ⟨r, he, ht'⟩⟩
    · exact .inl (by simpa using hb)
    · exact .inr (.inl ⟨i, t, .inl ⟨ht, decodeAccess_isHostOp hi, hh⟩, he, rfl⟩)
    · obtain ⟨rfl, -, hb, hp⟩ := exec_hostOp_fault (decodeAccess_isHostOp hi) he
      exact .inr (.inr (.inr ⟨ht, hb, hp, ht'⟩))
  · rename_i ht
    exact .inr (.inl ⟨_, t, .inr (by rw [ht]; rfl), h, rfl⟩)
  · rename_i ht
    exact .inr (.inl ⟨_, t, .inr (by rw [ht]; rfl), h, rfl⟩)
  · rename_i ht
    exact .inr (.inl ⟨_, t, .inr (by rw [ht]; rfl), h, rfl⟩)
  · rename_i ht
    exact .inr (.inl ⟨_, t, .inr (by rw [ht]; rfl), h, rfl⟩)
  · rename_i ht
    exact .inr (.inl ⟨_, t, .inr (by rw [ht]; rfl), h, rfl⟩)
  · exact .inr (.inr (.inl ⟨‹_›, by cases h; rfl⟩))

/-- A property of the block that holds after reset, that every operation keeps and that a recorded fault does not touch is
kept by every step. -/
theorem step_keeps {P : State → Prop} (hblock : ∀ s t : State, t.block = s.block → P s → P t)
    (hexec : ∀ i (s t : State), s.cfg.Ok → P s → exec i s = .next t → P t)
    (hreset : ∀ s : State, s.cfg.Ok → P s → P s.powerOn)
    (hfault : ∀ (s : State) (r : Fault), P s → P (s.recordFault r)) {s t : State} (hs : P s) (h : step s = .next t) :
    P t := by
  obtain ⟨hok, hb | ⟨i, u, -, hu, hb⟩ | ⟨-, rfl⟩ | ⟨-, -, -, rfl⟩⟩ := step_block h
  · exact hblock s t hb hs
  · exact hblock u t hb (hexec i s.endTurn u hok (hblock s s.endTurn rfl hs) hu)
  · exact hreset s.endTurn hok (hblock s s.endTurn rfl hs)
  · exact hfault s.endTurn _ (hblock s s.endTurn rfl hs)

end Machine

end Sys2Proof
end

