-- ==== Sys2Proof/Laws/Views.lean ====
section
/-! SUPPORT. The invariants and the views of Safety.lean speak of the block alone: two states with the same block, or with
the same relevant fields, agree on them. -/

namespace Sys2Proof.Machine

theorem State.ControlInv.of_block {s t : State} (h : t.block = s.block) (hs : s.ControlInv) : t.ControlInv := by
  obtain ⟨r, p, n, u, v, rfl⟩ := State.eq_of_block h
  exact ⟨hs.idle, hs.thenSwap, hs.stopped, hs.running, hs.latched, hs.noOverlap, hs.todoRange, hs.todoRising⟩

theorem State.planeWords_congr {s t : State} (hc : t.cfg = s.cfg) (hf : t.sf = s.sf) (hd : t.draw = s.draw) :
    t.planeWords = s.planeWords := by
  funext k h
  unfold State.planeWords
  rw [State.sfByte_congr hf hd, hc]

theorem State.RxFromStore.congr {s t : State} (hc : t.cfg = s.cfg) (hf : t.sf = s.sf) (hd : t.draw = s.draw)
    (hr : t.scn.run = s.scn.run) (hch : ∀ h, t.ch h = s.ch h) (hln : ∀ h, t.ln h = s.ln h) (hs : s.RxFromStore) :
    t.RxFromStore := by
  intro hrun h
  rw [hr] at hrun
  rw [hch, hln, hc, hs hrun h, State.planeWords_congr hc hf hd]

theorem State.RxFromStore.of_block {s t : State} (h : t.block = s.block) (hs : s.RxFromStore) : t.RxFromStore := by
  obtain ⟨r, p, n, u, v, rfl⟩ := State.eq_of_block h
  exact hs.congr rfl rfl rfl rfl (fun _ => rfl) (fun _ => rfl)

end Sys2Proof.Machine
end

