-- ==== Sys2Proof/Tests/Slice0.lean ====
section
/-! SUPPORT. The model's own tests, and one witness for each statement that has hypotheses. Expected values are those of
spec/95_test_vectors.md (V..), of the rule named, or computed by hand from it. -/

open Sys2Proof Sys2Proof.Machine

namespace Sys2Proof.Tests

/-! ### Helpers -/

/-- An answer is a next state with this property. -/
def isNext (a : Answer) (p : State → Bool) : Bool :=
  match a with
  | .next t => p t
  | .fault _ => false
  | .refused _ => false

/-- An answer is this refusal. -/
def isRefused (a : Answer) (r : Refusal) : Bool :=
  match a with
  | .next _ => false
  | .fault _ => false
  | .refused q => decide (q = r)

/-- An answer is this fault. -/
def isFault (a : Answer) (r : Fault) : Bool :=
  match a with
  | .next _ => false
  | .fault q => decide (q = r)
  | .refused _ => false

/-- T32x4 with MSB0 for both bit orders (95_test_vectors, *MSB0*). -/
def msb : Config := { Config.t32x4 with pfPixOrder := .msb0, sfBitOrder := .msb0 }

/-- After reset in a configuration, with these bytes in PF. -/
def withPf (c : Config) (pf : Memory) : State := { State.resetWith c 0 with pf := pf }

/-- After reset with PF and SF all zero in T10x4. -/
def zeroed : State :=
  { State.resetWith Config.t10x4 0 with
    pf := Memory.fill [] 12 0
    sf := { p0 := Memory.fill [] 8 0, p1 := Memory.fill [] 8 0, p2 := Memory.fill [] 8 0, p3 := Memory.fill [] 8 0 } }

/-- A state whose next turn is the HOST's, performing this access. -/
def hosting (s : State) (b : BusAccess) : State := { s with turns := [.host], prog := [.access b] }

/-- A state whose next turn is this one. -/
def turning (s : State) (t : Turn) : State := { s with turns := [t] }

/-- A state whose next turn is the HOST's, which waits for the swap before these items. -/
def waiting (s : State) (rest : List HostItem) : State := { s with turns := [.host], prog := .waitSwap :: rest }

/-- T10x4 with registers that no aligned access reaches. -/
def oddBase : Config := { Config.t10x4 with regBase := 2 }

/-- Plane 0 of program P2 (95_test_vectors): the stripes. -/
def stripes : Memory :=
  [(0, 0x00), (1, 0x11), (2, 0xFF), (3, 0xFF), (4, 0x00), (5, 0x88), (6, 0xFF), (7, 0xFF),
   (8, 0x00), (9, 0x44), (10, 0xFF), (11, 0xFF), (12, 0x00), (13, 0x22), (14, 0xFF), (15, 0xFF)]

/-- T32x4 running in slot i, its channels and lanes just armed, with the stripes in plane 0. -/
def running (i : Slot) : State :=
  { ((State.resetWith Config.t32x4 0).arm i) with
    sf := { p0 := stripes, p1 := [], p2 := [], p3 := [] }
    cyc := { index := i, swapPending := false }
    scn := { run := true, irqPending := false } }

/-- T10x4 running in slot 0 over zeroed planes, both channels finished, the interrupt not yet raised. -/
def delivered : State :=
  { zeroed with
    scn := { run := true, irqPending := false }
    ch0 := { en := false, plane := 0, rdOff := 4, remaining := 0 }
    ch1 := { en := false, plane := 0, rdOff := 8, remaining := 0 }
    ln0 := { en := true, lines := 1, words := 1, rx := [0] }
    ln1 := { en := true, lines := 1, words := 1, rx := [0] } }

/-- Running in slot i with the interrupt latched and this swap flag. -/
def latched (i : Slot) (pending : Bool) : State :=
  { delivered with
    cyc := { index := i, swapPending := pending }
    scn := { run := true, irqPending := true }
    ch0 := { delivered.ch0 with plane := i }
    ch1 := { delivered.ch1 with plane := i } }

/-- Running in slot 1 with this fault recorded. -/
def faulted (r : Fault) : State := { latched 1 true with fault := some r }

/-- A run in progress over zeroed memories, these bytes still to be written. -/
def encoding (thenSwap : Bool) (todo : List (Slot × Nat)) : State :=
  { zeroed with enc := { busy := true, thenSwap := thenSwap, todo := todo } }

/-! ### Well-formedness: each check refuses an ill-formed term -/

theorem test_wellFormed_pfrd : (Instr.pfrd .w2 30).wellFormed = true ∧ (Instr.pfrd .w2 1).wellFormed = false := by decide

theorem test_wellFormed_pfwr_align :
    (Instr.pfwr .w4 28 0xFFAA5500).wellFormed = true ∧ (Instr.pfwr .w4 30 0).wellFormed = false := by decide

theorem test_wellFormed_pfwr_value :
    (Instr.pfwr .w1 17 0xFF).wellFormed = true ∧ (Instr.pfwr .w1 17 0x100).wellFormed = false := by decide

/-- R6: the two named configurations are well formed; one that breaks R6, R62 or R258 is not. -/
theorem test_config_ok : Config.t32x4.Ok ∧ Config.t10x4.Ok ∧ msb.Ok := by decide

theorem test_config_not_ok :
    ¬({ Config.t32x4 with width := 0 } : Config).Ok ∧ ¬({ Config.t32x4 with height := 2048 } : Config).Ok ∧
    ¬({ Config.t32x4 with height := 3 } : Config).Ok ∧ ¬({ Config.t32x4 with linesPerRefresh := 1 } : Config).Ok ∧
    ¬({ Config.t32x4 with pfWinBase := 15 } : Config).Ok := by decide

/-- R7: the derived parameters of the two configurations. -/
theorem test_config_derived :
    (Config.t32x4.pfStride, Config.t32x4.sfStride, Config.t32x4.pfBytes, Config.t32x4.planeBytes,
      Config.t32x4.halfBytes, Config.t32x4.halfWords) = (8, 4, 32, 16, 8, 2) ∧
    (Config.t10x4.pfStride, Config.t10x4.sfStride, Config.t10x4.pfBytes, Config.t10x4.planeBytes,
      Config.t10x4.halfBytes, Config.t10x4.halfWords) = (3, 2, 12, 8, 4, 1) := by decide

/-! ### Decoding: words written out from R91 and R94 (V1 to V10), accesses from R99 -/

theorem test_decode_setpix :
    decodeCommand 0b0001_0111_000000000010_000000000101 = .setpix 5 2 7 ∧
    decodeCommand 0x13000FFF = .setpix (-1) 0 3 ∧ decodeCommand 0x1F8007FF = .setpix 2047 (-2048) 15 := by decide

theorem test_decode_getpix :
    decodeCommand 0b0010_0000_000000000010_000000000101 = .getpix 5 2 ∧
    decodeCommand 0x20FFFFFF = .getpix (-1) (-1) := by decide

theorem test_decode_clear :
    decodeCommand 0b0011_0001_000000000000_000000000000 = .clear 1 ∧ decodeCommand 0x3F000000 = .clear 15 := by decide

theorem test_decode_encode :
    decodeCommand 0b0100_0000_000000000000_000000000000 = .encode ∧ decodeCommand 0x4ABCDEF0 = .encode := by decide

theorem test_decode_swapreq : decodeCommand 0b0101_0000_000000000000_000000000000 = .swapreq := by decide

theorem test_decode_updswap : decodeCommand 0b0110_0000_000000000000_000000000000 = .updswap := by decide

theorem test_decode_start :
    decodeCommand 0b0111_0000_000000000000_000000000000 = .start ∧ decodeCommand 0x7FFFFFFF = .start := by decide

theorem test_decode_reserved0 :
    decodeCommand 0x00000000 = .reserved0 0 ∧ decodeCommand 0x0FFFFFFF = .reserved0 0xFFFFFFF := by decide

theorem test_decode_reserved8F :
    decodeCommand 0x80000000 = .reserved8F 0 ∧ decodeCommand 0xFFFFFFFF = .reserved8F 0x7FFFFFFF := by decide

theorem test_access_rdstatus : decodeAccess Config.t32x4 (.read 4 4) = .op .rdstatus := by decide

theorem test_access_rdpixdata : decodeAccess Config.t32x4 (.read 8 4) = .op .rdpixdata := by decide

theorem test_access_pfrd : decodeAccess Config.t32x4 (.read 4126 2) = .op (.pfrd .w2 30) := by decide

theorem test_access_pfwr :
    decodeAccess Config.t32x4 (.write 4113 1 0xABCD120C) = .op (.pfwr .w1 17 0x0C) := by decide

/-- R99: a command is a 32-bit write of CMD; the encoders agree with the words of R102. -/
theorem test_access_command :
    decodeAccess Config.t32x4 (.write 0 4 0x31000000) = .op (.clear 1) ∧
    encode (.setpix 5 2 7) = some 0x17002005 ∧
    encodeAccess Config.t32x4 .start = some (.write 0 4 0x70000000) := by decide

/-- The table's word is a whole command word; a longer one is none. -/
theorem test_table_word :
    decodeTableWord 32 0x17002005 = some (.setpix 5 2 7) ∧ decodeTableWord 64 0x17002005 = none := by decide

/-- R103: the expansions. -/
theorem test_pseudo :
    pseudoUpdateAndSwap Config.t32x4 = [.access (.write 0 4 0x60000000), .waitSwap] ∧
    pseudoSwap Config.t32x4 = [.access (.write 0 4 0x50000000), .waitSwap] ∧
    pseudoUpdate Config.t32x4 = [.access (.write 0 4 0x40000000)] ∧
    pseudoGetPixel Config.t32x4 5 2 = [.access (.write 0 4 0x20002005), .access (.read 8 4)] ∧
    pseudoGetFramePtr Config.t32x4 = 4096 := by decide

/-! ### Framebuffer operations (V11 to V29) -/

/-- V11 and V16, LSB0 and MSB0. -/
theorem test_setpix :
    isNext (exec (.setpix 5 2 7) (withPf Config.t32x4 [(17, 0)])) (fun t => Memory.read t.pf 17 == some 0x0C) = true ∧
    isNext (exec (.setpix 5 2 7) (withPf msb [(17, 0)])) (fun t => Memory.read t.pf 17 == some 0x30) = true ∧
    isNext (exec (.setpix 31 3 3) (withPf Config.t32x4 [(31, 0)])) (fun t => Memory.read t.pf 31 == some 0xC0) = true ∧
    isNext (exec (.setpix 31 3 3) (withPf msb [(31, 0)])) (fun t => Memory.read t.pf 31 == some 0x03) = true := by
  decide

/-- V12 to V15, V17 and V29. -/
theorem test_setpix_bounds :
    isNext (exec (.setpix 32 0 3) (withPf Config.t32x4 [])) (fun t => t.pf == []) = true ∧
    isNext (exec (.setpix 0 4 3) (withPf Config.t32x4 [])) (fun t => t.pf == []) = true ∧
    isNext (exec (.setpix (-1) 0 3) (withPf Config.t32x4 [])) (fun t => t.pf == []) = true ∧
    isNext (exec (.setpix 0 (-2048) 9) (withPf Config.t32x4 [])) (fun t => t.pf == []) = true ∧
    isNext (exec (.setpix 10 0 3) (withPf Config.t10x4 [])) (fun t => t.pf == []) = true ∧
    isNext (exec (.setpix 1 0 0) (withPf Config.t32x4 [(0, 0xFF)])) (fun t => t.pf == [(0, 0xF3)]) = true ∧
    isNext (exec (.setpix 1 0 0) (withPf msb [(0, 0xFF)])) (fun t => t.pf == [(0, 0xCF)]) = true := by
  decide

/-- V18, V19 and V28. -/
theorem test_getpix :
    isNext (exec (.getpix 5 2) (withPf Config.t32x4 [(17, 0x0C)])) (fun t => t.pixdata == 3) = true ∧
    isNext (exec (.getpix 32 3) { withPf Config.t32x4 [] with pixdata := 3 }) (fun t => t.pixdata == 0) = true ∧
    isNext (exec (.getpix 9 0) (withPf Config.t10x4 [(2, 0xAA)])) (fun t => t.pixdata == 2) = true ∧
    isNext (exec (.getpix 10 0) (withPf Config.t10x4 [(2, 0xAA)])) (fun t => t.pixdata == 0) = true := by decide

/-- V20, V21 and V27: every byte, pad pixels included; the clamp. -/
theorem test_clear :
    isNext (exec (.clear 1) (withPf Config.t32x4 [])) (fun t => t.pf == (List.range 32).map fun a => (a, 0x55)) = true ∧
    isNext (exec (.clear 2) (withPf Config.t10x4 [(3, 1)])) (fun t => t.pf == (List.range 12).map fun a => (a, 0xAA))
      = true := by decide

theorem test_clear_clamp :
    (fillByte (clampLevel 0), fillByte (clampLevel 3), fillByte (clampLevel 4), fillByte (clampLevel 15)) =
      (0x00, 0xFF, 0xFF, 0xFF) := by decide

/-- V22 and V24. -/
theorem test_pfrd :
    isNext (exec (.pfrd .w4 0) (withPf Config.t32x4 [(0, 0x00), (1, 0x55), (2, 0xAA), (3, 0xFF)]))
      (fun t => t.rdata == 0xFFAA5500) = true ∧
    isNext (exec (.pfrd .w2 2) (withPf Config.t32x4 [(2, 0xAA), (3, 0xFF)])) (fun t => t.rdata == 0xFFAA) = true ∧
    isNext (exec (.pfrd .w1 31) (withPf Config.t32x4 [(31, 0x55)])) (fun t => t.rdata == 0x55) = true := by decide

/-- V26: misaligned, crossing the end, outside; misaligned on the bus, during a run (log 7). -/
theorem test_pfrd_refused :
    isRefused (exec (.pfrd .w2 1) (withPf Config.t32x4 [])) .badAccess = true ∧
    isRefused (exec (.pfrd .w4 30) (withPf Config.t32x4 [])) .badAccess = true ∧
    isRefused (exec (.pfrd .w4 32) (withPf Config.t32x4 [])) .badAccess = true ∧
    isRefused (step (hosting (encoding false [(0, 0)]) (.read 4106 4))) .badAccess = true := by decide

/-- V23 and V25. -/
theorem test_pfwr :
    isNext (exec (.pfwr .w4 0 0xFFAA5500) (withPf Config.t32x4 [(2, 7)]))
      (fun t => t.pf == [(0, 0x00), (1, 0x55), (2, 0xAA), (3, 0xFF)]) = true ∧
    isNext (exec (.pfwr .w1 17 0x0C) (withPf Config.t32x4 [])) (fun t => t.pf == [(17, 0x0C)]) = true := by decide

/-- V26. -/
theorem test_pfwr_refused : isRefused (exec (.pfwr .w1 32 0) (withPf Config.t32x4 [])) .badAccess = true := by decide

/-- V18: the read returns the latched level. -/
theorem test_rdpixdata :
    isNext (exec .rdpixdata { State.reset with pixdata := 3 }) (fun t => t.rdata == 3) = true := by decide

/-- R96, program P5 (c). -/
theorem test_reserved :
    isRefused (step (State.reset.withFetchWord 32 0x00000000)) .reservedOpcode = true ∧
    isRefused (step (State.reset.withFetchWord 32 0x90000000)) .reservedOpcode = true := by decide

/-! ### The dither encoder (V30 to V36) -/

/-- V30. -/
theorem test_lit :
    (([0, 1, 2, 3] : List Slot).map fun l => ([0, 1, 2, 3] : List Slot).map fun k => lit l k 5 2) =
      [[false, false, false, false], [false, false, false, true], [true, false, true, false],
       [true, true, true, true]] := by decide

/-- V31: a carry, no wrap, and the symmetric pair. -/
theorem test_lit_corners :
    lit 1 0 3 1 = true ∧ lit 1 0 2046 2046 = true ∧ lit 1 3 1 2 = true ∧ lit 1 3 2 1 = true := by decide

/-- R142: the example row of the stripes, byte 1 in each plane. -/
theorem test_encByte_stripes :
    (([0, 1, 2, 3] : List Slot).map fun k => (withPf Config.t32x4 [(2, 0x55), (3, 0x55)]).encByte k 1) =
      [0x11, 0x22, 0x44, 0x88] := by decide

/-- V33: level 1 in T10x4, second byte of rows 0 and 3 of plane 0, LSB0 and MSB0, and level 3: pad bits are 0. -/
theorem test_encByte_pad :
    let one := (List.range 12).map fun a => (a, (0x55 : Byte))
    (withPf Config.t10x4 one).encByte 0 1 = 0x01 ∧ (withPf Config.t10x4 one).encByte 0 7 = 0x02 ∧
    (withPf { Config.t10x4 with sfBitOrder := .msb0 } one).encByte 0 1 = 0x80 ∧
    (withPf Config.t10x4 ((List.range 12).map fun a => (a, 0xFF))).encByte 1 1 = 0x03 := by decide

/-- V36: acceptance. -/
theorem test_encode :
    isNext (exec .encode (State.resetWith Config.t10x4 0))
      (fun t => t.enc.busy && !t.enc.thenSwap && decide (t.enc.todo.length = 32) && t.status == 8) = true ∧
    isFault (exec .encode (latched 0 true)) .swapOverlap = true := by decide

theorem test_updswap :
    isNext (exec .updswap (State.resetWith Config.t10x4 0))
      (fun t => t.enc.busy && t.enc.thenSwap && decide (t.enc.todo.length = 32)) = true ∧
    isFault (exec .updswap (latched 0 true)) .swapOverlap = true := by decide

/-- R146: the chosen byte is written and struck from the set, whichever it is. -/
theorem test_encstep :
    isNext (exec (.encstep 2 5) { encoding false [(0, 0), (2, 5), (3, 7)] with pf := Memory.fill [] 12 0xFF })
      (fun t => Memory.read t.sf.p2 5 == some 0x03 && t.enc.todo == [(0, 0), (3, 7)]) = true := by decide

/-- R147 and V36. -/
theorem test_encdone :
    isNext (exec .encdone (encoding true [])) (fun t => !t.enc.busy && !t.enc.thenSwap && t.cyc.swapPending) = true ∧
    isNext (exec .encdone (encoding false [])) (fun t => !t.enc.busy && !t.cyc.swapPending) = true := by decide

/-! ### The scanout driver (V40 to V44) -/

/-- V40, and a second START. -/
theorem test_start :
    isNext (exec .start State.reset) (fun t =>
      t.ch0 == { en := true, plane := 0, rdOff := 0, remaining := 2 } &&
      t.ch1 == { en := true, plane := 0, rdOff := 8, remaining := 2 } &&
      t.ln0 == { en := true, lines := 2, words := 1, rx := [] } && t.ln1 == t.ln0 && t.status == 0x10) = true ∧
    isNext (exec .start (latched 2 false)) (fun t => t.ch0 == (latched 2 false).ch0 && t.status == 0x32) = true := by
  decide

/-- V41, first and second step. -/
theorem test_xfer :
    isNext (exec (.xfer .half0) (running 0)) (fun t =>
      t.ln0.rx == [0xFFFF1100] && t.ch0 == { en := true, plane := 0, rdOff := 4, remaining := 1 } &&
      t.ch1 == (running 0).ch1) = true ∧
    isNext (exec (.xfer .half1) (running 0)) (fun t =>
      t.ln1.rx == [0xFFFF4400] && t.ch1 == { en := true, plane := 0, rdOff := 12, remaining := 1 }) = true := by decide

/-- V41, the last word of a channel. -/
theorem test_xfer_last :
    isNext (exec (.xfer .half1) { running 0 with ch1 := { en := true, plane := 0, rdOff := 12, remaining := 1 } })
      (fun t => t.ln1.rx == [0xFFFF2200] && t.ch1 == { en := false, plane := 0, rdOff := 16, remaining := 0 }) = true := by
  decide

/-- V42: the record, and status 0x30. -/
theorem test_refdone :
    isNext (exec .refdone delivered) (fun t => t.out == [{ index := 0, rx0 := [0], rx1 := [0] }] && t.status == 0x30)
      = true ∧
    isNext (exec .refdone (running 0)) (fun t => t.out == []) = true := by decide

/-- V43 and V44: a TICK that is no wrap keeps the flag. -/
theorem test_tick :
    isNext (exec .tick (latched 2 true)) (fun t =>
      t.cyc == { index := 3, swapPending := true } && !t.scn.irqPending &&
      t.ch1 == { en := true, plane := 3, rdOff := 4, remaining := 1 } && t.ln0.rx == []) = true := by decide

/-- V44: the wrap clears the flag, whether set or not. -/
theorem test_tick_wrap :
    isNext (exec .tick (latched 3 true)) (fun t => t.cyc == { index := 0, swapPending := false }) = true ∧
    isNext (exec .tick (latched 3 false)) (fun t => t.cyc == { index := 0, swapPending := false }) = true := by decide

/-! ### The swap, the port and reset (V50, V51, V54, V60) -/

/-- V50 and V54. -/
theorem test_swapreq :
    isNext (exec .swapreq State.reset) (fun t => t.status == 4) = true ∧
    isFault (exec .swapreq (latched 1 true)) .swapOverlap = true := by decide

/-- V51. -/
theorem test_rdstatus :
    isNext (exec .rdstatus (latched 3 true)) (fun t => t.rdata == 0x37) = true ∧
    isNext (exec .rdstatus { latched 3 false with enc := { busy := true, thenSwap := false, todo := [] } })
      (fun t => t.rdata == 0x3B) = true ∧
    isNext (exec .rdstatus { latched 2 true with scn := { run := true, irqPending := false } })
      (fun t => t.rdata == 0x16) = true := by decide

/-- R193: the wait stays while the flag is set. -/
theorem test_waitSwap :
    isNext (step (waiting (latched 0 true) [])) (fun t => t.prog == [.waitSwap]) = true ∧
    isNext (step (waiting (latched 0 false) [])) (fun t => t.prog == []) = true := by decide

/-- R197 (b), R103: after UPDSWAP the wait does not end while the run is in progress (log 17); a REG_BASE of 2 (log 18). -/
theorem test_waitSwap_run :
    isNext (step (waiting (encoding true [(0, 0)]) [])) (fun t => t.prog == [.waitSwap]) = true ∧
    isRefused (step (waiting { latched 0 false with cfg := oddBase } [])) .badAccess = true := by decide

/-- V54, U1, V60: the step that accepts an overlapping SWAPREQ records the fault, every later turn answers it, and a reset
clears it. -/
theorem test_fault_recorded :
    isNext (step (hosting (latched 1 true) (.write 0 4 0x50000000))) (fun t =>
      t.fault == some .swapOverlap && t.prog.isEmpty && t.status == 0x35) = true ∧
    isFault (step (turning (faulted .swapOverlap) .tick)) .swapOverlap = true ∧
    isNext (step (turning (faulted .swapOverlap) .reset)) (fun t => t.fault == none && t.status == 0) = true := by decide

/-- V36, R95: a held command stays with the HOST, also a reserved one; RDSTATUS goes through. -/
theorem test_port :
    isNext (step (hosting (encoding false [(0, 0)]) (.write 0 4 0x33000000))) (fun t =>
      t.prog == [.access (.write 0 4 0x33000000)] && t.pf == (encoding false [(0, 0)]).pf) = true ∧
    isNext (step (hosting (encoding false [(0, 0)]) (.write 0 4 0))) (fun t => !t.prog.isEmpty) = true ∧
    isNext (step (hosting (encoding false [(0, 0)]) (.read 4 4))) (fun t => t.prog.isEmpty && t.rdata == 8) = true := by
  decide

/-- V60, R240. -/
theorem test_reset :
    isNext (step (turning { encoding true [(1, 2)] with pixdata := 3 } .reset)) (fun t =>
      t.status == 0 && t.enc.todo.isEmpty && t.out.isEmpty && t.pixdata == 0 && t.pf.isEmpty && t.draw == 1) = true := by
  decide

/-- A table word placed by withFetchWord is what the very next step runs. -/
theorem test_withFetchWord :
    isNext (step (State.reset.withFetchWord 32 0x70000000)) (fun t => t.status == 0x10) = true ∧
    isNext (step (State.reset.withFetchWord 32 0x12000003)) (fun t => t.pf.length == 1) = true := by decide

/-! ### Witnesses: the hypotheses of each statement are met together

`witness_X` is for the statement Obligations.X: its hypotheses at concrete values, clause by clause. -/

/-- The step of an answer that is a next state. -/
theorem exists_next {a : Answer} {p : State → Bool} (h : isNext a p = true) : ∃ t, a = .next t ∧ p t = true := by
  unfold isNext at h
  split at h
  · exact ⟨_, rfl, h⟩
  · cases h
  · cases h

theorem inv_reset : State.reset.ControlInv where
  idle := fun _ => rfl
  thenSwap := by decide
  stopped := fun _ => ⟨rfl, fun h => by cases h <;> decide, rfl⟩
  running := by intro h; cases h
  latched := by intro h; cases h
  noOverlap := by decide
  todoRange := by intro p hp; cases hp
  todoRising := by decide

theorem inv_delivered : delivered.ControlInv where
  idle := fun _ => rfl
  thenSwap := by decide
  stopped := by intro h; cases h
  running := fun _ h => by cases h <;> constructor <;> decide
  latched := by intro h; cases h
  noOverlap := by decide
  todoRange := by intro p hp; cases hp
  todoRising := by decide

theorem inv_latched : (latched 3 true).ControlInv where
  idle := fun _ => rfl
  thenSwap := by decide
  stopped := by intro h; cases h
  running := fun _ h => by cases h <;> constructor <;> decide
  latched := fun _ h => by cases h <;> rfl
  noOverlap := by decide
  todoRange := by intro p hp; cases hp
  todoRising := by decide

/-- Running in slot 3 at the end of the run of an UPDSWAP. -/
def swapping : State := { latched 3 false with enc := (encoding true []).enc }

theorem inv_swapping : swapping.ControlInv where
  idle := fun _ => rfl
  thenSwap := by decide
  stopped := by intro h; cases h
  running := fun _ h => by cases h <;> constructor <;> decide
  latched := fun _ h => by cases h <;> rfl
  noOverlap := by decide
  todoRange := by intro p hp; cases hp
  todoRising := by decide

/-- `State.Along`, with a next state at each step, as a Bool. -/
def alongCheck (p : State → Bool) : Nat → State → Bool
  | 0, _ => true
  | k + 1, s => p s && isNext (step s) (alongCheck p k)

theorem along_of_check {P : State → Prop} [DecidablePred P] :
    ∀ (k : Nat) (s : State), alongCheck (fun u => decide (P u)) k s = true → State.Along P k s
  | 0, _, _ => trivial
  | k + 1, s, h => by
    simp only [alongCheck, Bool.and_eq_true, decide_eq_true_eq] at h
    refine ⟨h.1, fun t ht => along_of_check k t ?_⟩
    have := h.2
    rw [ht] at this
    exact this

/-- A block that is this one has the invariant too. -/
theorem inv_of_latched {s : State} (h : s.block = (latched 3 true).block) : s.ControlInv :=
  State.ControlInv.of_block (s := latched 3 true) h inv_latched

theorem rx_delivered : delivered.RxFromStore := fun _ h => by cases h <;> decide

theorem witness_DecodeOfEncode : encode (.setpix 5 2 7) = some 0x17002005 ∧ encode (.reserved8F 5) = some 0x80000005 := by
  decide

theorem witness_AccessSelectsItsOperation :
    Config.t32x4.Ok ∧ Config.t32x4.regBase % 4 = 0 ∧ Config.t32x4.pfWinBase % 4 = 0 ∧
    (Instr.pfrd .w4 28).wellFormed = true ∧ Config.t32x4.windowOk .w4 28 ∧
    (Instr.pfwr .w1 31 0xFF).wellFormed = true ∧ Config.t32x4.windowOk .w1 31 ∧
    encodeAccess Config.t32x4 (.pfrd .w4 28) = some (.read 4124 4) ∧
    encodeAccess Config.t32x4 (.pfwr .w1 31 0xFF) = some (.write 4127 1 0xFF) ∧
    encodeAccess Config.t32x4 .rdstatus = some (.read 4 4) := by decide

/-- Each register, a narrow and a misaligned access, and the reserved offset 0x0C. -/
theorem witness_RegisterAccessesSelected :
    (∀ a ∈ [0, 4, 8, 1, 12, 15], Config.t32x4.inRegs a) ∧ (∀ a ∈ [0, 4, 8], (4 = 4 ∧ a % 4 = 0)) ∧
    ¬(2 = 4 ∧ 0 % 4 = 0) ∧ ¬(4 = 4 ∧ 1 % 4 = 0) ∧ (12 ≠ 0 ∧ 12 ≠ 0 + 4 ∧ 12 ≠ 0 + 8) := by decide

/-- The last bytes of the window by each width; below the window, beyond it, across its end, a width of 3, an address and,
with a window at 4098, an offset that is not aligned. -/
theorem witness_WindowAccessesSelected :
    (∀ a ∈ [4127, 4126, 4124, 4128, 4097, 4095, 16], ¬Config.t32x4.inRegs a) ∧
    (∀ p ∈ [(Width.w1, 4127), (Width.w2, 4126), (Width.w4, 4124)], p.2 % p.1.bytes = 0 ∧ (p.2 - 4096) % p.1.bytes = 0 ∧
      4096 ≤ p.2 ∧ p.2 + p.1.bytes ≤ 4096 + Config.t32x4.pfBytes) ∧
    (4095 < 4096 ∧ 16 < 4096) ∧ 4096 + Config.t32x4.pfBytes < 4128 + 1 ∧ 4096 + Config.t32x4.pfBytes < 4126 + 4 ∧
    (∀ n ∈ [Width.w1, .w2, .w4], 3 ≠ n.bytes) ∧ 4097 % 2 ≠ 0 ∧ (4100 % 4 = 0 ∧ (4100 - 4098) % 4 ≠ 0) := by decide

/-- The HOST's operation with each of its three answers, and an agent's step. -/
theorem witness_StepRunsTheSelectedOperation :
    (∀ p ∈ [(encoding false [], BusAccess.read 4 4, Instr.rdstatus), (latched 1 true, .write 0 4 0x50000000, .swapreq),
        (delivered, .write 0 4 0, .reserved0 0)],
      (hosting p.1 p.2.1).cfg.Ok ∧ (hosting p.1 p.2.1).fault = none ∧ (hosting p.1 p.2.1).turn = .host ∧
      (hosting p.1 p.2.1).item = .access p.2.1 ∧ decodeAccess Config.t10x4 p.2.1 = .op p.2.2 ∧
      ¬(heldAtPort p.2.2 = true ∧ (hosting p.1 p.2.1).enc.busy = true)) ∧
    isNext (exec .rdstatus (encoding false [])) (fun _ => true) = true ∧
    isFault (exec .swapreq (latched 1 true)) .swapOverlap = true ∧
    isRefused (exec (.reserved0 0) delivered) .reservedOpcode = true ∧
    (turning delivered .tick).turn.agentStep = some .tick := by decide

theorem witness_AccessesWithoutAnOperation :
    (∀ b ∈ [BusAccess.read 0 4, .write 4 4 7, .read 12 4],
      (hosting State.reset b).cfg.Ok ∧ (hosting State.reset b).fault = none ∧ (hosting State.reset b).turn = .host ∧
      (hosting State.reset b).item = .access b) ∧
    decodeAccess State.reset.cfg (.read 0 4) = .readCmd ∧ decodeAccess State.reset.cfg (.write 4 4 7) = .ignoredWrite ∧
    decodeAccess State.reset.cfg (.read 12 4) = .bad := by decide

theorem witness_PortHoldsWhileBusy :
    ∀ p ∈ [(BusAccess.write 0 4 0, Instr.reserved0 0), (.read 4104 4, .pfrd .w4 8), (.read 8 4, .rdpixdata)],
      (hosting (encoding false []) p.1).cfg.Ok ∧ (hosting (encoding false []) p.1).fault = none ∧
      (hosting (encoding false []) p.1).turn = .host ∧ (hosting (encoding false []) p.1).item = .access p.1 ∧
      decodeAccess Config.t10x4 p.1 = .op p.2 ∧ (encoding false []).enc.busy = true := by decide

theorem witness_IllFormedConfigRefused : ¬(State.resetWith { Config.t32x4 with wordsPerLine := 0 } 0).cfg.Ok := by decide

/-- Out of bounds at each edge; the last pixel in bounds, beside a pad pixel and another pixel. -/
theorem witness_SetpixPutsItsPixel :
    State.reset.enc.busy = false ∧ ¬Config.t10x4.inBounds (BitVec.toInt (10#12)) 0 ∧
    ¬Config.t10x4.inBounds (BitVec.toInt (0xFFF#12)) 0 ∧ ¬Config.t10x4.inBounds 0 (BitVec.toInt (4#12)) ∧
    Config.t10x4.inBounds (BitVec.toInt (9#12)) (BitVec.toInt (3#12)) ∧ ((9 : Nat) : Int) = BitVec.toInt (9#12) ∧
    ((3 : Nat) : Int) = BitVec.toInt (3#12) ∧ Config.t10x4.pfAddr 9 3 = 11 ∧ 0 ≠ Config.t10x4.pfAddr 9 3 ∧
    11 / 4 < Config.t10x4.pfStride ∧ (11, 3) ≠ (9, 3) := by decide

theorem witness_GetpixLatchesTheLevel :
    State.reset.enc.busy = false ∧ ¬Config.t32x4.inBounds (BitVec.toInt (32#12)) 0 ∧
    Config.t32x4.inBounds (BitVec.toInt (31#12)) (BitVec.toInt (3#12)) ∧ ((31 : Nat) : Int) = BitVec.toInt (31#12) ∧
    ((3 : Nat) : Int) = BitVec.toInt (3#12) ∧ isNext (exec (.clear 1) State.reset) (fun _ => true) = true := by decide

/-- The first and the last byte of PF and the first beyond it; the last pixel. -/
theorem witness_ClearFillsTheSurface :
    State.reset.enc.busy = false ∧ 0 < Config.t32x4.pfBytes ∧ 31 < Config.t32x4.pfBytes ∧ Config.t32x4.pfBytes ≤ 32 ∧
    31 < Config.t32x4.width ∧ 3 < Config.t32x4.height := by decide

theorem witness_PfrdAnswersItsBytes :
    State.reset.enc.busy = false ∧ State.reset.cfg.windowOk .w4 28 ∧ ¬State.reset.cfg.windowOk .w4 30 ∧
    ¬State.reset.cfg.windowOk .w1 32 := by decide

/-- The last word; the bytes on both sides of a stored one; misaligned. -/
theorem witness_PfwrStoresItsBytes :
    State.reset.enc.busy = false ∧ State.reset.cfg.windowOk .w4 28 ∧ State.reset.cfg.windowOk .w2 2 ∧ 1 < 2 ∧
    2 + Width.w2.bytes ≤ 4 ∧ ¬State.reset.cfg.windowOk .w2 1 := by decide

theorem witness_HeldOperationsChangeNothing :
    (∀ i ∈ [Instr.clear 3, .pfrd .w4 8, .pfwr .w1 11 7],
      (encoding false []).enc.busy = true ∧ i.isHostOp = true ∧ i ≠ .rdstatus ∧ i ≠ .rdpixdata) ∧
    Config.t10x4.windowOk .w4 8 ∧ Config.t10x4.windowOk .w1 11 := by decide

/-- A column in bounds and a pad column of T10x4. -/
theorem witness_EncoderByteBits :
    7 < 8 ∧ 1 < 8 ∧ 9 < Config.t10x4.width ∧ 9 = 8 * (1 % Config.t10x4.sfStride) + 1 ∧ Config.t10x4.width ≤ 15 ∧
    15 = 8 * (1 % Config.t10x4.sfStride) + 7 ∧ 0 = 1 / Config.t10x4.sfStride := by decide

/-- Two frames that differ in a pad pixel alone. -/
theorem witness_EncoderReadsPixelsInBoundsOnly :
    zeroed.cfg.Ok ∧ 7 < Config.t10x4.planeBytes ∧
    (∀ x, x < 10 → ∀ y, y < 4 →
      (State.pfPix { zeroed with pf := Memory.write zeroed.pf 2 0xF0 } x y) = zeroed.pfPix x y) := by decide

theorem witness_NoLevelOneFramesRepeat :
    zeroed.cfg.Ok ∧ 7 < zeroed.cfg.planeBytes ∧ (∀ x, x < 10 → ∀ y, y < 4 → zeroed.pfPix x y ≠ 1) := by decide

theorem witness_EncodeAndUpdswapStartARun : delivered.enc.busy = false ∧ delivered.cyc.swapPending = false := by decide

theorem witness_OverlappingSwapFaults :
    (latched 3 true).enc.busy = false ∧ (latched 3 true).cyc.swapPending = true ∧
    (∀ p ∈ [((0x40000000 : Word), Instr.encode), (0x50000000, .swapreq), (0x60000000, .updswap)],
      (hosting (latched 3 true) (.write 0 4 p.1)).cfg.Ok ∧ (hosting (latched 3 true) (.write 0 4 p.1)).fault = none ∧
      (hosting (latched 3 true) (.write 0 4 p.1)).turn = .host ∧
      (hosting (latched 3 true) (.write 0 4 p.1)).item = .access (.write 0 4 p.1) ∧
      decodeAccess Config.t10x4 (.write 0 4 p.1) = .op p.2) ∧
    ((turning (faulted .swapOverlap) .tick).cfg.Ok ∧ (turning (faulted .swapOverlap) .tick).fault = some .swapOverlap ∧
      (turning (faulted .swapOverlap) .tick).turn ≠ .reset) := by decide

theorem witness_EncstepWritesAnyChosenByte :
    (encoding false [(0, 0), (3, 7)]).enc.busy = true ∧ ((3, 7) : Slot × Nat) ∈ (encoding false [(0, 0), (3, 7)]).enc.todo ∧
    7 < (encoding false []).cfg.planeBytes ∧ ((3, 6) : Slot × Nat) ≠ (3, 7) := by decide

theorem witness_EncdoneEndsTheRun : (encoding true []).enc.busy = true ∧ (encoding true []).enc.todo = [] := by decide

theorem zeroed_generation : ∀ k : Slot, ∀ a, a < 8 → zeroed.sfByte k a = zeroed.encByte k a := by decide

theorem witness_RunEndsWithTheGeneration :
    (encoding true []).RunInv ∧ (encoding true []).enc.busy = true ∧ (encoding true []).enc.todo = [] :=
  ⟨fun _ k a ha _ => zeroed_generation k a ha, rfl, rfl⟩

theorem witness_EveryStepKeepsTheRunInvariant :
    (turning (encoding true [(2, 3)]) (.encStep 2 3)).RunInv ∧
    ∃ t, step (turning (encoding true [(2, 3)]) (.encStep 2 3)) = .next t ∧ t.enc.todo.isEmpty = true :=
  ⟨fun _ k a ha _ => zeroed_generation k a ha, exists_next (by decide)⟩

theorem witness_PfIsStableDuringARun :
    (turning (encoding true [(2, 3)]) (.encStep 2 3)).enc.busy = true ∧
    (turning (encoding true [(2, 3)]) (.encStep 2 3)).turn ≠ .reset ∧
    ∃ t, step (turning (encoding true [(2, 3)]) (.encStep 2 3)) = .next t ∧ true = true :=
  ⟨rfl, by decide, exists_next (p := fun _ => true) (by decide)⟩

theorem witness_StartArmsPlaneZero :
    State.reset.enc.busy = false ∧ State.reset.scn.run = false ∧ delivered.enc.busy = false ∧ delivered.scn.run = true := by
  decide

/-- The first and the last word of each half. -/
theorem witness_XferMovesOneWord :
    ((running 0).scn.run = true ∧ ((running 0).ch .half0).en = true ∧ 0 < ((running 0).ch .half0).remaining ∧
      ((running 0).ln .half0).en = true ∧ ((running 0).ch .half0).rdOff + 4 ≤ (running 0).cfg.planeBytes) ∧
    (let s := (running 0).setCh .half1 { en := true, plane := 0, rdOff := 12, remaining := 1 }
     s.scn.run = true ∧ (s.ch .half1).en = true ∧ 0 < (s.ch .half1).remaining ∧ (s.ln .half1).en = true ∧
      (s.ch .half1).rdOff + 4 ≤ s.cfg.planeBytes) := by decide

theorem witness_RefdoneRecordsTheSubFrame :
    delivered.scn.run = true ∧ delivered.scn.irqPending = false ∧ delivered.ch0.remaining = 0 ∧
    delivered.ch1.remaining = 0 := by decide

theorem witness_TickServicesTheInterrupt :
    (latched 3 true).scn.run = true ∧ (latched 3 true).scn.irqPending = true ∧ (latched 3 true).cyc.index.toNat = 3 ∧
    (latched 2 true).scn.run = true ∧ (latched 2 true).scn.irqPending = true ∧ (latched 2 true).cyc.index.toNat ≠ 3 := by
  decide

/-- Each internal step in a state that does not enable it. -/
theorem witness_DisabledStepsChangeNothing :
    ¬((encoding false [(0, 0)]).enc.busy = true ∧ ((0, 1) : Slot × Nat) ∈ (encoding false [(0, 0)]).enc.todo) ∧
    ¬((encoding false [(0, 0)]).enc.busy = true ∧ (encoding false [(0, 0)]).enc.todo = []) ∧
    ¬(delivered.scn.run = true ∧ (delivered.ch .half1).en = true ∧ 0 < (delivered.ch .half1).remaining ∧
      (delivered.ln .half1).en = true) ∧
    ¬((latched 0 true).scn.run = true ∧ (latched 0 true).scn.irqPending = false ∧ (latched 0 true).ch0.remaining = 0 ∧
      (latched 0 true).ch1.remaining = 0) ∧
    ¬(delivered.scn.run = true ∧ delivered.scn.irqPending = true) := by decide

theorem witness_EveryStepKeepsTheControlInvariant :
    (turning (latched 3 true) .tick).ControlInv ∧
    ∃ t, step (turning (latched 3 true) .tick) = .next t ∧ decide (t.cyc.index = 0) = true :=
  ⟨State.ControlInv.of_block (s := latched 3 true) rfl inv_latched, exists_next (by decide)⟩

theorem witness_EveryStepKeepsTheSubFrameSequence :
    (turning delivered .refDone).SequenceInv ∧
    ∃ t, step (turning delivered .refDone) = .next t ∧ decide (t.out.length = 1) = true :=
  ⟨⟨rfl, fun _ _ => rfl, (by intro _ h; cases h), (by intro h; cases h)⟩, exists_next (by decide)⟩

theorem witness_EveryStepKeepsTheMemoriesCanonical :
    (hosting (withPf Config.t32x4 [(3, 1), (5, 2)]) (.write 4096 4 0x04030201)).MemOk ∧
    ∃ t, step (hosting (withPf Config.t32x4 [(3, 1), (5, 2)]) (.write 4096 4 0x04030201)) = .next t ∧
      decide (t.pf = [(0, 1), (1, 2), (2, 3), (3, 4), (5, 2)]) = true :=
  ⟨⟨by decide, by decide⟩, exists_next (by decide)⟩

/-- A TICK, a START, and a step that is not the encoder's. -/
theorem witness_LanesHoldWhatTheStoreHolds :
    ((latched 3 true).scn.run = true ∧ (latched 3 true).scn.irqPending = true ∧
      ∃ t, exec .tick (latched 3 true) = .next t ∧ true = true) ∧
    (State.reset.enc.busy = false ∧ State.reset.scn.run = false ∧ ∃ t, exec .start State.reset = .next t ∧ true = true) ∧
    ((turning delivered .refDone).ControlInv ∧ (turning delivered .refDone).RxFromStore ∧
      (∀ k a, (turning delivered .refDone).turn ≠ .encStep k a) ∧
      ∃ t, step (turning delivered .refDone) = .next t ∧ true = true) :=
  ⟨⟨rfl, rfl, exists_next (p := fun _ => true) (by decide)⟩,
   ⟨rfl, rfl, exists_next (p := fun _ => true) (by decide)⟩,
   ⟨State.ControlInv.of_block (s := delivered) rfl inv_delivered, State.RxFromStore.of_block (s := delivered) rfl rx_delivered, fun _ _ h => (by cases h),
    exists_next (p := fun _ => true) (by decide)⟩⟩

theorem witness_RecordShowsTheWholePlane :
    delivered.ControlInv ∧ delivered.RxFromStore ∧ delivered.scn.run = true ∧ delivered.scn.irqPending = false ∧
    delivered.ch0.remaining = 0 ∧ delivered.ch1.remaining = 0 :=
  ⟨inv_delivered, rx_delivered, rfl, rfl, rfl, rfl⟩

theorem witness_AgentsNeverStop :
    ((turning delivered (.xfer .half1)).cfg.Ok ∧ (turning delivered (.xfer .half1)).ControlInv ∧
      (turning delivered (.xfer .half1)).fault = none ∧ (turning delivered (.xfer .half1)).turn ≠ .host) ∧
    ((turning { latched 3 true with fault := some .swapOverlap } .reset).ControlInv ∧
      (turning { latched 3 true with fault := some .swapOverlap } .reset).turn = .reset) :=
  ⟨⟨by decide, State.ControlInv.of_block (s := delivered) rfl inv_delivered, rfl, by decide⟩,
   ⟨⟨inv_latched.1, inv_latched.2, inv_latched.3, inv_latched.4, inv_latched.5, inv_latched.6, inv_latched.7,
     inv_latched.8⟩, rfl⟩⟩

theorem witness_TheOnlyFaultIsSwapOverlap :
    (hosting (latched 3 true) (.write 0 4 0x50000000)).ControlInv ∧ (latched 3 true).fault = none ∧
    ∃ t, step (hosting (latched 3 true) (.write 0 4 0x50000000)) = .next t ∧ decide (t.fault = some .swapOverlap) = true :=
  ⟨inv_of_latched rfl, rfl, exists_next (by decide)⟩

/-- The same configuration, slot and scan flags under another memory, encoder, swap flag and HOST. -/
theorem witness_ProducerCannotInfluenceATick :
    let s := latched 3 true
    let u := hosting { latched 3 false with pf := [], enc := (encoding true [(1, 1)]).enc } (.write 0 4 0)
    u.cfg = s.cfg ∧ u.scn = s.scn ∧ u.cyc.index = s.cyc.index ∧ s.scn.run = true ∧ s.scn.irqPending = true := by decide

theorem witness_OnlyATickMovesTheSlot :
    (turning (latched 3 true) .tick).scn.run = true ∧ (turning (latched 3 true) .tick).turn ≠ .reset ∧
    ∃ t, step (turning (latched 3 true) .tick) = .next t ∧ decide (t.cyc.index = 0) = true :=
  ⟨rfl, by decide, exists_next (by decide)⟩

theorem witness_SwapreqSetsTheFlag :
    State.reset.enc.busy = false ∧ State.reset.cyc.swapPending = false ∧ (latched 0 true).enc.busy = false ∧
    (latched 0 true).cyc.swapPending = true := by decide

theorem witness_WaitswapPollsTheFlag :
    (∀ s ∈ [latched 0 true, latched 0 false, encoding true [], { latched 0 true with cfg := oddBase }],
      (waiting s []).cfg.Ok ∧ (waiting s []).fault = none ∧ (waiting s []).turn = .host ∧
      (waiting s []).item = .waitSwap) ∧
    (encoding true []).enc.busy = true ∧ (latched 0 true).enc.busy = false ∧ (latched 0 true).cyc.swapPending = true ∧
    (latched 0 false).cyc.swapPending = false ∧ Config.t10x4.regBase % 4 = 0 ∧ oddBase.regBase % 4 ≠ 0 := by decide

theorem witness_OnlyAWrapClearsTheFlag :
    (turning (latched 3 true) .tick).turn ≠ .reset ∧ (turning (latched 3 true) .tick).cyc.swapPending = true ∧
    ∃ t, step (turning (latched 3 true) .tick) = .next t ∧ (!t.cyc.swapPending) = true :=
  ⟨by decide, rfl, exists_next (by decide)⟩

/-- The flag set by the HOST and by ENCDONE; a run started by the HOST. -/
theorem witness_PollingGuarantees :
    (∃ t, step (hosting delivered (.write 0 4 0x50000000)) = .next t ∧ (t.cyc.swapPending && t.scn.run) = true) ∧
    (∃ t, step (turning (encoding true []) .encDone) = .next t ∧ t.cyc.swapPending = true) ∧
    (∃ t, step (hosting delivered (.write 0 4 0x40000000)) = .next t ∧ t.enc.busy = true) ∧
    delivered.cyc.swapPending = false ∧ delivered.scn.run = true ∧ delivered.enc.busy = false ∧
    (hosting delivered (.write 0 4 0x50000000)).turn ≠ .reset ∧ (turning (encoding true []) .encDone).turn ≠ .reset :=
  ⟨exists_next (by decide), exists_next (by decide), exists_next (by decide), rfl, rfl, rfl, by decide, by decide⟩

/-- One step with one TICK from slot 2, the flag still set; and slot 3 with the clearing TICK next. -/
theorem witness_SwapCompletesWithinOneCycle :
    (let s := turning (latched 2 true) .tick
     s.scn.run = true ∧ s.cyc.swapPending = true ∧ State.Along (fun u => u.turn ≠ .reset) 1 s ∧
      (∃ t, Host.Core.run core 1 s = .next t ∧ true = true) ∧ State.ticksIn 1 s < 4 - s.cyc.index.toNat) ∧
    (let s := turning (latched 3 true) .tick
     s.scn.run = true ∧ s.cyc.swapPending = true ∧ Host.Core.run core 0 s = .next s ∧
      State.ticksIn 0 s + 1 = 4 - s.cyc.index.toNat ∧ s.takesTick ∧ ∃ u, step s = .next u ∧ true = true) :=
  ⟨⟨rfl, rfl, ⟨by decide, fun _ _ => trivial⟩, ⟨_, rfl, rfl⟩, by decide⟩,
   ⟨rfl, rfl, rfl, by decide, by decide, exists_next (p := fun _ => true) (by decide)⟩⟩

/-- A HOST about to request a swap and wait for it, and one that waits. -/
theorem witness_WaitingHostNeverOverlaps :
    let s := { hosting delivered (.write 0 4 0x50000000) with prog := [.access (.write 0 4 0x50000000), .waitSwap] }
    (s.ControlInv ∧ s.fault = none ∧ s.SwapsSerialized ∧ s.prog ≠ []) ∧
    ((waiting (latched 3 true) []).ControlInv ∧ (waiting (latched 3 true) []).fault = none ∧
      (waiting (latched 3 true) []).SwapsSerialized ∧ (waiting (latched 3 true) []).prog ≠ []) :=
  ⟨⟨State.ControlInv.of_block (s := delivered) rfl inv_delivered, rfl,
    ⟨⟨fun _ => rfl, trivial⟩, by rintro (h | ⟨h, -⟩) <;> cases h⟩, by decide⟩,
   ⟨inv_of_latched rfl, rfl, ⟨trivial, fun _ => rfl⟩, by decide⟩⟩

/-- The two forms of R103: the flag set in slot 3 by a SWAPREQ, and the run of an UPDSWAP at its end; each to the end of the
wait. -/
theorem witness_SwapCallReturns :
    (let s := { waiting (latched 3 true) [] with turns := [.tick, .host] }
     s.ControlInv ∧ s.prog = .waitSwap :: [] ∧
      (s.enc.busy = false ∧ s.cyc.swapPending = true ∧ s.Generation) ∧
      State.Along (fun u => u.turn ≠ .reset ∧ u.prog = .waitSwap :: []) 2 s ∧
      ∃ t, Host.Core.run core 2 s = .next t ∧ t.prog = []) ∧
    (let s := { waiting swapping [] with turns := [.encDone, .tick, .host] }
     s.ControlInv ∧ s.prog = .waitSwap :: [] ∧ (s.enc.busy = true ∧ s.enc.thenSwap = true ∧ s.RunInv) ∧
      State.Along (fun u => u.turn ≠ .reset ∧ u.prog = .waitSwap :: []) 3 s ∧
      ∃ t, Host.Core.run core 3 s = .next t ∧ t.prog = []) :=
  ⟨⟨inv_of_latched rfl, rfl, ⟨rfl, rfl, zeroed_generation⟩, along_of_check 2 _ (by decide), ⟨_, rfl, rfl⟩⟩,
   ⟨State.ControlInv.of_block (s := swapping) rfl inv_swapping, rfl, ⟨rfl, rfl, fun _ k a ha _ => zeroed_generation k a ha⟩, along_of_check 3 _ (by decide),
    ⟨_, rfl, rfl⟩⟩⟩

/-- One step that appends a record. -/
theorem witness_CleanWindowShowsOneGeneration :
    let s := turning delivered .refDone
    s.ControlInv ∧ s.RxFromStore ∧ State.Along (fun u => u.enc.busy = false ∧ u.turn ≠ .reset) 1 s ∧
    ∃ t, Host.Core.run core 1 s = .next t ∧ t.out.length = 1 :=
  ⟨State.ControlInv.of_block (s := delivered) rfl inv_delivered, State.RxFromStore.of_block (s := delivered) rfl rx_delivered, ⟨by decide, fun _ _ => trivial⟩, ⟨_, rfl, rfl⟩⟩

/-- The HOST's turn, the encoder's and the lanes'. -/
theorem witness_AgentsWriteOnlyTheirOwn :
    (∃ t, step (hosting State.reset (.write 0 4 0x33000000)) = .next t ∧ decide (t.pf.length = 32) = true) ∧
    (∃ t, step (turning (encoding true [(2, 3)]) (.encStep 2 3)) = .next t ∧ true = true) ∧
    (∃ t, step (turning delivered .refDone) = .next t ∧ decide (t.out.length = 1) = true) ∧
    (hosting State.reset (.write 0 4 0x33000000)).turn ≠ .reset ∧ (turning delivered .refDone).turn ≠ .reset :=
  ⟨exists_next (by decide), exists_next (p := fun _ => true) (by decide), exists_next (by decide), by decide, by decide⟩

theorem witness_NonStoringOperationsKeepTheMemories :
    (∃ t, exec (.xfer .half0) (running 0) = .next t ∧ true = true) ∧ (∀ x y l, Instr.xfer .half0 ≠ .setpix x y l) ∧
    (∀ l, Instr.xfer .half0 ≠ .clear l) ∧ (∀ n a v, Instr.xfer .half0 ≠ .pfwr n a v) ∧
    (∀ k a, Instr.xfer .half0 ≠ .encstep k a) :=
  ⟨exists_next (p := fun _ => true) (by decide), by simp, by simp, by simp, by simp⟩

theorem witness_ResetValues : State.reset = State.resetWith Config.t32x4 0 := by decide

/-- In the midst of a run, and with a fault recorded. -/
theorem witness_ResetStepResetsTheBlock :
    ∀ s ∈ [encoding true [(1, 2)], faulted .swapOverlap], (turning s .reset).cfg.Ok ∧ (turning s .reset).turn = .reset := by
  decide

theorem witness_IdleUntilTheHostActs :
    (turning State.reset .tick).scn.run = false ∧ (turning State.reset .tick).enc.busy = false ∧
    (turning State.reset .tick).turn.agentStep = some .tick ∧
    ∃ t, step (turning State.reset .tick) = .next t ∧ true = true :=
  ⟨rfl, rfl, rfl, exists_next (p := fun _ => true) (by decide)⟩

end Sys2Proof.Tests
end

section
open Sys2Proof Sys2Proof.Machine

namespace Sys2Proof.Machine

/-! ### What a turn selects -/

/-- The schedule is not the HOST's: taking the turn leaves its item. -/
@[simp] theorem State.endTurn_item (s : State) : s.endTurn.item = s.item := rfl

/-- An agent's turn is its one operation (R70). -/
theorem runTurn_of_agentStep {u : Turn} {i : Instr} (h : u.agentStep = some i) (s : State) :
    runTurn u s = exec i s := by
  cases u <;> cases h <;> rfl

/-- The port runs an operation that it does not hold, and records its fault (R95, R99; log 10). -/
theorem runAccess_op {s : State} {b : BusAccess} {i : Instr} (hi : decodeAccess s.cfg b = .op i)
    (hn : ¬(heldAtPort i = true ∧ s.enc.busy = true)) : runAccess b s = recording s (exec i s) := by
  simp only [runAccess, hi]
  exact if_neg hn

/-- The HOST's turn with a bus access as its item performs that access at the port (R99). -/
theorem runHost_access {s : State} {b : BusAccess} (hb : s.item = .access b) : runHost s = runAccess b s := by
  simp only [runHost, hb]

/-- The HOST's turn, at an access that selects an operation the port does not hold, runs that operation after `endTurn`
(R13, R99). -/
theorem step_hostOp {s : State} {b : BusAccess} {i : Instr} (hok : s.cfg.Ok) (hl : s.live) (ht : s.turn = .host)
    (hb : s.item = .access b) (hi : decodeAccess s.cfg b = .op i)
    (hn : ¬(heldAtPort i = true ∧ s.enc.busy = true)) : step s = recording s.endTurn (exec i s.endTurn) :=
  calc step s = runTurn s.turn s.endTurn := step_eq hok hl
    _ = runHost s.endTurn := by rw [ht]; rfl
    _ = runAccess b s.endTurn := runHost_access (s.endTurn_item.trans hb)
    _ = recording s.endTurn (exec i s.endTurn) := runAccess_op hi hn

/-- An agent's turn runs that agent's operation after `endTurn` (R13, R70). -/
theorem step_agentStep {s : State} {i : Instr} (hok : s.cfg.Ok) (hl : s.live) (ha : s.turn.agentStep = some i) :
    step s = exec i s.endTurn :=
  (step_eq hok hl).trans (runTurn_of_agentStep ha s.endTurn)

/-- An ill-formed configuration is refused before the turn is looked at (R6; log 16). -/
theorem step_of_not_ok {s : State} (h : ¬s.cfg.Ok) : step s = .refused .illFormedConfig :=
  if_neg h

/-- Settles O8: on the HOST's turn the step is `recording` of the operation's answer, read off once per answer; on an
agent's turn it is the operation's answer itself. -/
theorem stepRunsTheSelectedOperation : Obligations.StepRunsTheSelectedOperation := by
  intro s i hok hf
  refine ⟨fun b ht hb hi hn => ?_, step_agentStep hok (.inl hf)⟩
  rw [step_hostOp hok (.inl hf) ht hb hi hn]
  refine ⟨fun t h => ?_, fun r h => ?_, fun r h => ?_⟩ <;> rw [h] <;> rfl

/-- Settles O11: the configuration is the first thing a step checks. -/
theorem illFormedConfigRefused : Obligations.IllFormedConfigRefused :=
  fun _ h => step_of_not_ok h

end Sys2Proof.Machine
end

section
open Sys2Proof Sys2Proof.Machine

namespace Sys2Proof.Machine

/-! ### Which operations touch the control state -/

/-- The operations that may change the encoder or the swap flag (R145 to R147, R168, R190, R191). -/
def setsEncoder : Instr → Bool
  | .encode => true
  | .swapreq => true
  | .updswap => true
  | .encstep _ _ => true
  | .encdone => true
  | .tick => true
  | _ => false

/-- The operations that may change what the scanout driver stands on: the index, SCN, the channels, the lanes and OUT
(R165 to R168). -/
def setsDriver : Instr → Bool
  | .start => true
  | .xfer _ => true
  | .refdone => true
  | .tick => true
  | _ => false

/-- The encoder and the swap flag are as they were. -/
structure State.SameEncoder (s t : State) : Prop where
  enc : t.enc = s.enc
  swapPending : t.cyc.swapPending = s.cyc.swapPending

/-- The driver's part of the state is as it was. -/
structure State.SameDriver (s t : State) : Prop where
  index : t.cyc.index = s.cyc.index
  scn : t.scn = s.scn
  ch : t.ch = s.ch
  ln : t.ln = s.ln
  out : t.out = s.out

/-- The frame of every operation on the control state: `setsEncoder` and `setsDriver` name all that touch it. -/
theorem exec_control_frame {i : Instr} {s t : State} (h : exec i s = .next t) :
    (setsEncoder i = false → s.SameEncoder t) ∧ (setsDriver i = false → s.SameDriver t) := by
  cases i with
  | setpix x y l =>
    rcases execSetpix_next h with ⟨-, rfl⟩ | ⟨-, -, rfl⟩ | ⟨-, -, rfl⟩ <;>
      exact ⟨fun _ => ⟨rfl, rfl⟩, fun _ => ⟨rfl, rfl, rfl, rfl, rfl⟩⟩
  | getpix x y =>
    rcases execGetpix_next h with ⟨-, rfl⟩ | ⟨-, v, rfl⟩ <;>
      exact ⟨fun _ => ⟨rfl, rfl⟩, fun _ => ⟨rfl, rfl, rfl, rfl, rfl⟩⟩
  | clear l =>
    rcases execClear_next h with ⟨-, rfl⟩ | ⟨-, rfl⟩ <;>
      exact ⟨fun _ => ⟨rfl, rfl⟩, fun _ => ⟨rfl, rfl, rfl, rfl, rfl⟩⟩
  | encode =>
    rcases State.startRun_next h with ⟨-, rfl⟩ | ⟨-, -, rfl⟩ <;> exact ⟨nofun, fun _ => ⟨rfl, rfl, rfl, rfl, rfl⟩⟩
  | swapreq =>
    rcases execSwapreq_next h with ⟨-, rfl⟩ | ⟨-, -, rfl⟩ <;> exact ⟨nofun, fun _ => ⟨rfl, rfl, rfl, rfl, rfl⟩⟩
  | updswap =>
    rcases State.startRun_next h with ⟨-, rfl⟩ | ⟨-, -, rfl⟩ <;> exact ⟨nofun, fun _ => ⟨rfl, rfl, rfl, rfl, rfl⟩⟩
  | start =>
    rcases execStart_next h with ⟨-, rfl⟩ | ⟨-, -, rfl⟩ | ⟨-, -, rfl⟩ <;> exact ⟨fun _ => ⟨rfl, rfl⟩, nofun⟩
  | reserved0 p => cases h
  | reserved8F p => cases h
  | rdstatus => cases h; exact ⟨fun _ => ⟨rfl, rfl⟩, fun _ => ⟨rfl, rfl, rfl, rfl, rfl⟩⟩
  | rdpixdata => cases h; exact ⟨fun _ => ⟨rfl, rfl⟩, fun _ => ⟨rfl, rfl, rfl, rfl, rfl⟩⟩
  | pfrd n a =>
    rcases execPfrd_next h with ⟨-, rfl⟩ | ⟨-, -, rfl⟩ <;>
      exact ⟨fun _ => ⟨rfl, rfl⟩, fun _ => ⟨rfl, rfl, rfl, rfl, rfl⟩⟩
  | pfwr n a v =>
    rcases execPfwr_next h with ⟨-, rfl⟩ | ⟨-, -, rfl⟩ <;>
      exact ⟨fun _ => ⟨rfl, rfl⟩, fun _ => ⟨rfl, rfl, rfl, rfl, rfl⟩⟩
  | encstep k a =>
    rcases execEncstep_next h with ⟨-, rfl⟩ | ⟨-, -, rfl⟩ <;> exact ⟨nofun, fun _ => ⟨rfl, rfl, rfl, rfl, rfl⟩⟩
  | encdone =>
    rcases execEncdone_next h with ⟨-, rfl⟩ | ⟨-, rfl⟩ <;> exact ⟨nofun, fun _ => ⟨rfl, rfl, rfl, rfl, rfl⟩⟩
  | xfer g =>
    rcases execXfer_next h with ⟨-, rfl⟩ | ⟨-, -, rfl⟩ <;> exact ⟨fun _ => ⟨by simp, by simp⟩, nofun⟩
  | refdone => rcases execRefdone_next h with ⟨-, rfl⟩ | ⟨-, rfl⟩ <;> exact ⟨fun _ => ⟨rfl, rfl⟩, nofun⟩
  | tick => exact ⟨nofun, nofun⟩

/-! ### The two halves of the control invariant -/

/-- Items 2 and 7 of R43 with the range and order of `ENC.todo`: what the invariant says of the encoder and the swap
flag. -/
structure State.EncoderInv (s : State) : Prop where
  idle : s.enc.busy = false → s.enc.todo = []
  thenSwap : s.enc.thenSwap = true → s.enc.busy = true
  noOverlap : ¬(s.cyc.swapPending = true ∧ s.enc.busy = true)
  todoRange : ∀ p ∈ s.enc.todo, p.2 < s.cfg.planeBytes
  todoRising : s.enc.todo.Pairwise fun p q => p.1.toNat < q.1.toNat ∨ (p.1 = q.1 ∧ p.2 < q.2)

/-- Items 3 to 6 of R43: what the invariant says of the scanout driver. -/
structure State.DriverInv (s : State) : Prop where
  stopped : s.scn.run = false →
    s.scn.irqPending = false ∧ (∀ h, (s.ch h).en = false ∧ (s.ln h).en = false) ∧ s.out = []
  running : s.scn.run = true → ∀ h, HalfOk s.cfg s.cyc.index h (s.ch h) (s.ln h)
  latched : s.scn.irqPending = true → ∀ h, (s.ch h).remaining = 0

theorem State.controlInv_iff {s : State} : s.ControlInv ↔ s.EncoderInv ∧ s.DriverInv :=
  ⟨fun h => ⟨⟨h.idle, h.thenSwap, h.noOverlap, h.todoRange, h.todoRising⟩, ⟨h.stopped, h.running, h.latched⟩⟩,
    fun ⟨e, d⟩ => ⟨e.idle, e.thenSwap, d.stopped, d.running, d.latched, e.noOverlap, e.todoRange, e.todoRising⟩⟩

theorem State.EncoderInv.congr {s t : State} (hs : s.EncoderInv) (hc : t.cfg = s.cfg) (h : s.SameEncoder t) :
    t.EncoderInv := by
  obtain ⟨he, hp⟩ := h
  constructor <;> rw [he]
  · exact hs.idle
  · exact hs.thenSwap
  · rw [hp]; exact hs.noOverlap
  · rw [hc]; exact hs.todoRange
  · exact hs.todoRising

theorem State.DriverInv.congr {s t : State} (hs : s.DriverInv) (hc : t.cfg = s.cfg) (h : s.SameDriver t) :
    t.DriverInv := by
  obtain ⟨hi, hn, hch, hln, ho⟩ := h
  constructor <;> rw [hn, hch]
  · rw [hln, ho]; exact hs.stopped
  · rw [hc, hi, hln]; exact hs.running
  · exact hs.latched

/-! ### The encoder's half is kept -/

theorem State.EncoderInv.startRun {s t : State} {b : Bool} (hs : s.EncoderInv) (h : s.startRun b = .next t) :
    t.EncoderInv := by
  rcases State.startRun_next h with ⟨-, rfl⟩ | ⟨-, hp, rfl⟩
  · exact hs
  · exact
      { idle := nofun
        thenSwap := fun _ => rfl
        noOverlap := by simp [hp]
        todoRange := fun _ hm => mem_fullTodo.mp hm
        todoRising := fullTodo_rising s.cfg }

theorem State.EncoderInv.swapreq {s t : State} (hs : s.EncoderInv) (h : execSwapreq s = .next t) : t.EncoderInv := by
  rcases execSwapreq_next h with ⟨-, rfl⟩ | ⟨hb, -, rfl⟩
  · exact hs
  · exact { hs with noOverlap := by simp [hb] }

theorem State.EncoderInv.encstep {s t : State} {k : Slot} {a : Nat} (hs : s.EncoderInv)
    (h : execEncstep k a s = .next t) : t.EncoderInv := by
  rcases execEncstep_next h with ⟨-, rfl⟩ | ⟨-, -, rfl⟩
  · exact hs
  · exact
      { hs with
        idle := fun hb => by simp [hs.idle hb]
        todoRange := fun p hp => hs.todoRange p (List.mem_of_mem_filter hp)
        todoRising := hs.todoRising.filter _ }

/-- ENCDONE may set the flag, but it ends the run in the same step (R147). -/
theorem State.EncoderInv.encdone {s t : State} (hs : s.EncoderInv) (h : execEncdone s = .next t) : t.EncoderInv := by
  rcases execEncdone_next h with ⟨-, rfl⟩ | ⟨hd, rfl⟩
  · exact hs
  · exact { hs with idle := fun _ => hd.2, thenSwap := nofun, noOverlap := nofun }

/-- A TICK never sets the flag (R168 step 5). -/
theorem pending_of_swapAfterTick {i : Slot} {p : Bool} (h : swapAfterTick i p = true) : p = true := by
  unfold swapAfterTick at h
  split at h
  · cases h
  · exact h

theorem State.EncoderInv.tick {s t : State} (hs : s.EncoderInv) (h : execTick s = .next t) : t.EncoderInv := by
  rcases execTick_next h with ⟨-, rfl⟩ | ⟨-, rfl⟩
  · exact hs
  · exact { hs with noOverlap := fun ⟨hp, hb⟩ => hs.noOverlap ⟨pending_of_swapAfterTick hp, hb⟩ }

theorem State.EncoderInv.exec {i : Instr} {s t : State} (hs : s.EncoderInv) (h : exec i s = .next t) :
    t.EncoderInv := by
  cases i with
  | encode => exact hs.startRun h
  | swapreq => exact hs.swapreq h
  | updswap => exact hs.startRun h
  | encstep k a => exact hs.encstep h
  | encdone => exact hs.encdone h
  | tick => exact hs.tick h
  | _ => exact hs.congr (exec_frame h).1 ((exec_control_frame h).1 rfl)

/-! ### The driver's half is kept -/

/-- Arming starts a half of a sub-frame (R163): all its words remain, and there is at least one. -/
theorem HalfOk.armed {c : Config} (hok : c.Ok) (i : Slot) (h : Half) :
    HalfOk c i h (Channel.armed c i h) (Lane.armed c) :=
  { plane := rfl
    laneOn := rfl
    lines := rfl
    words := rfl
    bound := le_refl _
    pointer := by simp
    received := by simp
    enabled := by simp [(Config.halves hok).2.2] }

/-- Moving one of the remaining words keeps the pointer and the lane's count in step (R166). -/
theorem HalfOk.advance {c : Config} {i : Slot} {h : Half} {ch : Channel} {ln : Lane} (ok : HalfOk c i h ch ln)
    (hr : 0 < ch.remaining) (w : Word) : HalfOk c i h ch.advance { ln with rx := ln.rx ++ [w] } := by
  have hb := ok.bound
  have hp := ok.pointer
  have hx := ok.received
  have he := ok.enabled
  exact
    { plane := ok.plane
      laneOn := ok.laneOn
      lines := ok.lines
      words := ok.words
      bound := by simp only [Channel.advance]; omega
      pointer := by simp only [Channel.advance]; omega
      received := by simp only [Channel.advance, List.length_append, List.length_singleton]; omega
      enabled := by
        have hen : ch.en = true := he.mpr hr
        simp only [Channel.advance, hen]
        split <;> simp <;> omega }

/-- A driver that has just been armed stands at the start of its sub-frame (R163, R165, R168). -/
theorem State.DriverInv.of_armed {t : State} (hok : t.cfg.Ok) (hr : t.scn.run = true) (hi : t.scn.irqPending = false)
    (hch : ∀ h, t.ch h = Channel.armed t.cfg t.cyc.index h) (hln : ∀ h, t.ln h = Lane.armed t.cfg) : t.DriverInv where
  stopped := by simp [hr]
  running _ h := by rw [hch, hln]; exact .armed hok _ h
  latched := by simp [hi]

theorem State.DriverInv.start {s t : State} (hok : s.cfg.Ok) (hs : s.DriverInv) (h : execStart s = .next t) :
    t.DriverInv := by
  rcases execStart_next h with ⟨-, rfl⟩ | ⟨-, -, rfl⟩ | ⟨-, hrun, rfl⟩
  · exact hs
  · exact ⟨hs.stopped, hs.running, hs.latched⟩
  · exact .of_armed hok rfl (hs.stopped hrun).1 (State.ch_arm s.accept 0) (State.ln_arm s.accept 0)

theorem State.DriverInv.tick {s t : State} (hok : s.cfg.Ok) (hs : s.DriverInv) (h : execTick s = .next t) :
    t.DriverInv := by
  rcases execTick_next h with ⟨-, rfl⟩ | ⟨⟨hrun, -⟩, rfl⟩
  · exact hs
  · exact .of_armed hok hrun rfl (State.ch_arm s (s.cyc.index + 1)) (State.ln_arm s (s.cyc.index + 1))

/-- XFER is enabled only while words remain, so no interrupt is latched, and it moves one half alone (R166). -/
theorem State.DriverInv.xfer {s t : State} {g : Half} (hs : s.DriverInv) (h : execXfer g s = .next t) :
    t.DriverInv := by
  rcases execXfer_next h with ⟨-, rfl⟩ | ⟨⟨hrun, -, hrem, -⟩, -, rfl⟩
  · exact hs
  · constructor
    · simp [hrun]
    · intro _ f
      have hf := hs.running hrun f
      rw [State.ch_setCh, State.ln_setCh, State.ln_setLn, State.ch_setLn]
      simp only [State.setCh_cfg, State.setLn_cfg, State.setCh_cyc, State.setLn_cyc]
      by_cases hfg : f = g
      · subst hfg
        simpa using hf.advance hrem _
      · simpa [hfg] using hf
    · intro hi
      have h0 : (s.ch g).remaining = 0 := hs.latched (by simpa using hi) g
      omega

theorem State.DriverInv.refdone {s t : State} (hs : s.DriverInv) (h : execRefdone s = .next t) : t.DriverInv := by
  rcases execRefdone_next h with ⟨-, rfl⟩ | ⟨⟨hrun, -, h0, h1⟩, rfl⟩
  · exact hs
  · constructor
    · simp [hrun]
    · exact hs.running
    · rintro - (_ | _)
      · exact h0
      · exact h1

theorem State.DriverInv.exec {i : Instr} {s t : State} (hok : s.cfg.Ok) (hs : s.DriverInv) (h : exec i s = .next t) :
    t.DriverInv := by
  cases i with
  | start => exact hs.start hok h
  | xfer g => exact hs.xfer h
  | refdone => exact hs.refdone h
  | tick => exact hs.tick hok h
  | _ => exact hs.congr (exec_frame h).1 ((exec_control_frame h).2 rfl)

/-! ### Every step keeps the control invariant -/

theorem State.ControlInv.exec {i : Instr} {s t : State} (hok : s.cfg.Ok) (hs : s.ControlInv) (h : exec i s = .next t) :
    t.ControlInv := by
  obtain ⟨he, hd⟩ := State.controlInv_iff.mp hs
  exact State.controlInv_iff.mpr ⟨he.exec h, hd.exec hok h⟩

/-- The state after reset is idle and stopped, which leaves nothing for the other items of R43 to say. -/
theorem State.resetWith_controlInv (c : Config) (d : Nat) : (State.resetWith c d).ControlInv where
  idle _ := rfl
  thenSwap := nofun
  stopped _ := ⟨rfl, fun h => by cases h <;> exact ⟨rfl, rfl⟩, rfl⟩
  running := nofun
  latched := nofun
  noOverlap := nofun
  todoRange := nofun
  todoRising := .nil

/-- A reset step leaves the block of the state after reset (R240; log 9). -/
theorem State.powerOn_block (s : State) : s.powerOn.block = (State.resetWith s.cfg (s.draw + 1)).block := rfl

/-- Settles O37: each operation keeps the encoder's half and the driver's half of the invariant, a reset establishes both,
and a recorded fault touches neither. -/
theorem everyStepKeepsTheControlInvariant : Obligations.EveryStepKeepsTheControlInvariant := fun _ _ =>
  step_keeps (P := State.ControlInv)
    (hblock := fun _ _ => .of_block)
    (hexec := fun _ _ _ hok hs h => hs.exec hok h)
    (hreset := fun s _ _ => .of_block s.powerOn_block (State.resetWith_controlInv _ _))
    (hfault := fun _ _ hs => ⟨hs.idle, hs.thenSwap, hs.stopped, hs.running, hs.latched, hs.noOverlap, hs.todoRange,
      hs.todoRising⟩)

end Sys2Proof.Machine
end

section
open Sys2Proof Sys2Proof.Machine

namespace Sys2Proof.Machine

/-! ### The memories stay canonical and inside their sizes -/

/-- A memory is in its canonical form and lies inside its size (R24, R26; log 2). -/
def Memory.Fits (m : Memory) (size : Nat) : Prop := Memory.wf m ∧ Memory.within m size

theorem Memory.Fits.nil (size : Nat) : Memory.Fits [] size := ⟨.nil, nofun⟩

theorem Memory.Fits.write {m : Memory} {size x : Nat} (h : Memory.Fits m size) (hx : x < size) (v : Byte) :
    Memory.Fits (Memory.write m x v) size :=
  ⟨Memory.write_wf h.1 x v, Memory.write_within h.2 hx v⟩

theorem Memory.Fits.writeLE {m : Memory} {size a n : Nat} (h : Memory.Fits m size) (ha : a + n ≤ size) (v : Word) :
    Memory.Fits (Memory.writeLE m a n v) size :=
  ⟨Memory.writeLE_wf h.1 a n v, Memory.writeLE_within h.2 ha v⟩

theorem Memory.Fits.fill {m : Memory} {size : Nat} (h : Memory.Fits m size) (v : Byte) :
    Memory.Fits (Memory.fill m size v) size :=
  ⟨Memory.fill_wf h.1 size v, Memory.fill_within h.2 (le_refl size) v⟩

theorem State.MemOk.congr {s t : State} (hs : s.MemOk) (hc : t.cfg = s.cfg) (hp : t.pf = s.pf) (hf : t.sf = s.sf) :
    t.MemOk := by
  constructor
  · rw [hp, hc]; exact hs.pf
  · rw [hf, hc]; exact hs.sf

theorem State.MemOk.of_block {s t : State} (h : t.block = s.block) (hs : s.MemOk) : t.MemOk := by
  obtain ⟨hc, hp, hf, -⟩ := State.fields_of_block h
  exact hs.congr hc hp hf

theorem State.MemOk.setpix {x y : BitVec 12} {l : BitVec 4} {s t : State} (hs : s.MemOk)
    (h : execSetpix x y l s = .next t) : t.MemOk := by
  rcases execSetpix_next h with ⟨-, rfl⟩ | ⟨-, ⟨hx0, hx, hy0, hy⟩, rfl⟩ | ⟨-, -, rfl⟩
  · exact hs
  · have ha : s.cfg.pfAddr x.toInt.toNat y.toInt.toNat < s.cfg.pfBytes :=
      Config.pfAddr_lt_of_inBounds (by omega) (by omega)
    exact { hs with pf := Memory.Fits.write hs.pf ha _ }
  · exact ⟨hs.pf, hs.sf⟩

theorem State.MemOk.clear {l : BitVec 4} {s t : State} (hs : s.MemOk) (h : execClear l s = .next t) : t.MemOk := by
  rcases execClear_next h with ⟨-, rfl⟩ | ⟨-, rfl⟩
  · exact hs
  · exact { hs with pf := Memory.Fits.fill hs.pf _ }

theorem State.MemOk.pfwr {n : Width} {a : Nat} {v : Word} {s t : State} (hs : s.MemOk)
    (h : execPfwr n a v s = .next t) : t.MemOk := by
  rcases execPfwr_next h with ⟨-, rfl⟩ | ⟨-, ⟨-, hin⟩, rfl⟩
  · exact hs
  · exact { hs with pf := Memory.Fits.writeLE hs.pf hin v }

/-- ENCSTEP writes one plane, at an offset it has checked (R146); the other planes are as they were. -/
theorem State.MemOk.encstep {k : Slot} {a : Nat} {s t : State} (hs : s.MemOk) (h : execEncstep k a s = .next t) :
    t.MemOk := by
  rcases execEncstep_next h with ⟨-, rfl⟩ | ⟨-, ha, rfl⟩
  · exact hs
  · refine { hs with sf := fun j => ?_ }
    change Memory.Fits ((s.sf.set k _).get j) s.cfg.planeBytes
    by_cases hj : j = k
    · subst hj
      rw [Planes.get_set_same]
      exact Memory.Fits.write (hs.sf j) ha _
    · rw [Planes.get_set_ne _ _ hj]
      exact hs.sf j

theorem State.MemOk.exec {i : Instr} {s t : State} (hs : s.MemOk) (h : exec i s = .next t) : t.MemOk := by
  obtain ⟨hc, -, -, -, -, hp, hf, -, -⟩ := exec_frame h
  cases i with
  | setpix x y l => exact hs.setpix h
  | clear l => exact hs.clear h
  | pfwr n a v => exact hs.pfwr h
  | encstep k a => exact hs.encstep h
  | _ => exact hs.congr hc (hp rfl) (hf rfl)

@[simp] theorem Planes.get_empty (k : Slot) : Planes.get { p0 := [], p1 := [], p2 := [], p3 := [] } k = [] := by
  simp [Planes.get]

/-- After reset nothing is written. -/
theorem State.resetWith_memOk (c : Config) (d : Nat) : (State.resetWith c d).MemOk where
  pf := Memory.Fits.nil _
  sf k := by rw [State.resetWith_sf, Planes.get_empty]; exact Memory.Fits.nil _

/-- Settles O39: the four storing operations write inside the sizes, the others leave both memories, a reset empties
them. -/
theorem everyStepKeepsTheMemoriesCanonical : Obligations.EveryStepKeepsTheMemoriesCanonical := fun _ _ =>
  step_keeps (P := State.MemOk)
    (hblock := fun _ _ => .of_block)
    (hexec := fun _ _ _ _ hs h => hs.exec h)
    (hreset := fun s _ _ => .of_block s.powerOn_block (State.resetWith_memOk _ _))
    (hfault := fun _ _ hs => hs.congr rfl rfl rfl)

end Sys2Proof.Machine
end

section
open Sys2Proof Sys2Proof.Machine

namespace Sys2Proof

/-! ### The accesses of the register block -/

theorem decodeAccess_read_register {c : Config} {addr : Nat} (h : c.inRegs addr) (width : Nat) :
    decodeAccess c (.read addr width) =
      if regAccess addr width then selectRegRead (addr - c.regBase) else .bad :=
  if_pos h

theorem decodeAccess_write_register {c : Config} {addr : Nat} (h : c.inRegs addr) (width : Nat) (data : Word) :
    decodeAccess c (.write addr width data) =
      if regAccess addr width then selectRegWrite data (addr - c.regBase) else .bad :=
  if_pos h

/-- A register offset other than those of CMD, STATUS and PIXDATA has no meaning (R40). -/
theorem selectReg_bad {o : Nat} (h0 : o ≠ 0) (h4 : o ≠ 4) (h8 : o ≠ 8) (data : Word) :
    selectRegRead o = .bad ∧ selectRegWrite data o = .bad := by
  constructor
  · unfold selectRegRead
    split <;> [contradiction; contradiction; contradiction; rfl]
  · unfold selectRegWrite
    split <;> [contradiction; contradiction; contradiction; rfl]

/-- Settles O6: an aligned 32-bit access is selected by its offset, which is one of the three registers' or none; any other
access of the block is refused before its offset is looked at. -/
theorem registerAccessesSelected : Obligations.RegisterAccessesSelected := by
  intro c addr width data hin
  rw [decodeAccess_read_register hin, decodeAccess_write_register hin]
  by_cases hacc : width = 4 ∧ addr % 4 = 0
  · rw [if_pos hacc, if_pos hacc]
    refine ⟨fun _ => ⟨?_, ?_, ?_⟩, ?_⟩
    · rintro rfl
      rw [Nat.sub_self]
      exact ⟨rfl, rfl⟩
    · rintro rfl
      rw [Nat.add_sub_cancel_left]
      exact ⟨rfl, rfl⟩
    · rintro rfl
      rw [Nat.add_sub_cancel_left]
      exact ⟨rfl, rfl⟩
    · rintro (hno | ⟨h0, h4, h8⟩)
      · exact absurd hacc hno
      · have hle : c.regBase ≤ addr := hin.1
        exact selectReg_bad (by omega) (by omega) (by omega) data
  · rw [if_neg hacc, if_neg hacc]
    exact ⟨fun h => absurd h hacc, fun _ => ⟨rfl, rfl⟩⟩

namespace Machine

/-- The HOST's turn with a bus access as its item is that access at the port (R13, R99). -/
theorem step_hostAccess {s : State} {b : BusAccess} (hok : s.cfg.Ok) (hl : s.live) (ht : s.turn = .host)
    (hb : s.item = .access b) : step s = runAccess b s.endTurn :=
  calc step s = runTurn s.turn s.endTurn := step_eq hok hl
    _ = runHost s.endTurn := by rw [ht]; rfl
    _ = runAccess b s.endTurn := runHost_access (s.endTurn_item.trans hb)

theorem runAccess_readCmd {s : State} {b : BusAccess} (h : decodeAccess s.cfg b = .readCmd) :
    runAccess b s = .next (s.answer 0) := by
  simp only [runAccess, h]

theorem runAccess_ignoredWrite {s : State} {b : BusAccess} (h : decodeAccess s.cfg b = .ignoredWrite) :
    runAccess b s = .next s.accept := by
  simp only [runAccess, h]

theorem runAccess_bad {s : State} {b : BusAccess} (h : decodeAccess s.cfg b = .bad) :
    runAccess b s = .refused .badAccess := by
  simp only [runAccess, h]

/-- Settles O9: the HOST's turn is its access at the port, which answers these three without looking at the encoder. -/
theorem accessesWithoutAnOperation : Obligations.AccessesWithoutAnOperation := by
  intro s b hok hf ht hb
  rw [step_hostAccess hok (.inl hf) ht hb]
  exact ⟨fun h => runAccess_readCmd (s := s.endTurn) h, fun h => runAccess_ignoredWrite (s := s.endTurn) h,
    fun h => runAccess_bad (s := s.endTurn) h⟩

end Machine

end Sys2Proof
end

section
open Sys2Proof Sys2Proof.Machine

namespace Sys2Proof.Machine

/-! ### The state after reset -/

theorem State.resetWith_ch (c : Config) (d : Nat) (h : Half) :
    (State.resetWith c d).ch h = { en := false, plane := 0, rdOff := 0, remaining := 0 } := by
  cases h <;> rfl

theorem State.resetWith_ln (c : Config) (d : Nat) (h : Half) :
    (State.resetWith c d).ln h = { en := false, lines := 0, words := 0, rx := [] } := by
  cases h <;> rfl

theorem State.resetWith_status (c : Config) (d : Nat) : (State.resetWith c d).status = 0 := by
  simp [State.status]

/-- No byte of PF is written: each reads as the free value of the draw (R42; log 2). -/
theorem State.resetWith_pfByte (c : Config) (d a : Nat) :
    (State.resetWith c d).pfByte a = Config.powerOnByte d .pf a := rfl

/-- No byte of a plane is written either. -/
theorem State.resetWith_sfByte (c : Config) (d : Nat) (k : Slot) (a : Nat) :
    (State.resetWith c d).sfByte k a = Config.powerOnByte d (.plane k) a := by
  simp [State.sfByte]

theorem State.resetWith_sequenceInv (c : Config) (d : Nat) : (State.resetWith c d).SequenceInv where
  indices := rfl
  inFlight := nofun
  latched := nofun
  stopped _ := ⟨rfl, rfl⟩

/-- Settles O40: after reset no run is in progress and the scanout is stopped, so the invariants of a run and of the lanes
ask nothing. -/
theorem resetMeetsTheInvariants : Obligations.ResetMeetsTheInvariants := fun c d =>
  ⟨State.resetWith_controlInv c d, State.resetWith_sequenceInv c d, State.resetWith_memOk c d, nofun, nofun⟩

/-- Settles O58: the control fields are those of `State.resetWith`, and nothing is written in PF and SF. -/
theorem resetValues : Obligations.ResetValues := by
  rintro c d s rfl
  exact ⟨rfl, rfl, rfl, rfl, fun h => ⟨State.resetWith_ch c d h, State.resetWith_ln c d h⟩, rfl, rfl, rfl,
    State.resetWith_status c d, rfl, State.resetWith_pfByte c d, State.resetWith_sfByte c d⟩

end Sys2Proof.Machine
end

section
open Sys2Proof Sys2Proof.Machine

namespace Sys2Proof

/-! ### The accesses outside the register block -/

theorem decodeAccess_read_window {c : Config} {addr : Nat} (h : ¬c.inRegs addr) (width : Nat) :
    decodeAccess c (.read addr width) = if c.inWindow addr then selectWindow c addr width .pfrd else .bad :=
  if_neg h

theorem decodeAccess_write_window {c : Config} {addr : Nat} (h : ¬c.inRegs addr) (width : Nat) (data : Word) :
    decodeAccess c (.write addr width data) =
      if c.inWindow addr then
        selectWindow c addr width fun n a => .pfwr n a (data &&& BitVec.ofNat 32 (2 ^ (8 * n.bytes) - 1))
      else .bad :=
  if_neg h

/-- An access of 1, 2 or 4 bytes selects its operation exactly if it is aligned and inside the window (R67, R124). -/
theorem selectWindow_bytes (c : Config) (addr : Nat) (n : Width) (op : Width → Nat → Instr) :
    selectWindow c addr n.bytes op =
      if addr % n.bytes = 0 ∧ c.windowOk n (addr - c.pfWinBase) then .op (op n (addr - c.pfWinBase)) else .bad := by
  simp only [selectWindow, widthOfBytes_bytes]

theorem selectWindow_of_no_width {c : Config} {addr width : Nat} {op : Width → Nat → Instr}
    (h : ∀ n : Width, width ≠ n.bytes) : selectWindow c addr width op = .bad := by
  simp only [selectWindow, widthOfBytes_none h]

/-- Inside the window, an access that crosses its end, has no width of R67, or whose address or offset is misaligned is
refused (R67; log 7). -/
theorem selectWindow_bad {c : Config} {addr width : Nat} (op : Width → Nat → Instr) (hin : c.inWindow addr)
    (h : c.pfWinBase + c.pfBytes < addr + width ∨ (∀ n : Width, width ≠ n.bytes) ∨ addr % width ≠ 0 ∨
      (addr - c.pfWinBase) % width ≠ 0) : selectWindow c addr width op = .bad := by
  by_cases hw : ∃ n : Width, width = n.bytes
  · obtain ⟨n, rfl⟩ := hw
    rw [selectWindow_bytes]
    refine if_neg fun ⟨haddr, hoff, hend⟩ => ?_
    have hlo : c.pfWinBase ≤ addr := hin.1
    rcases h with h | h | h | h
    · omega
    · exact h n rfl
    · exact h haddr
    · exact h hoff
  · exact selectWindow_of_no_width (not_exists.mp hw)

/-- Settles O7: inside the window the selection is the check of `selectWindow`, and outside it every access is refused. -/
theorem windowAccessesSelected : Obligations.WindowAccessesSelected := by
  intro c addr width data hreg
  rw [decodeAccess_read_window hreg, decodeAccess_write_window hreg]
  refine ⟨?_, fun hbad => ?_⟩
  · rintro n rfl haddr hoff hlo hend
    have hpos := n.bytes_pos
    have hin : c.inWindow addr := ⟨hlo, by omega⟩
    have hok : c.windowOk n (addr - c.pfWinBase) := ⟨hoff, by omega⟩
    rw [if_pos hin, if_pos hin, selectWindow_bytes, selectWindow_bytes, if_pos ⟨haddr, hok⟩, if_pos ⟨haddr, hok⟩]
    exact ⟨rfl, _, rfl, fun _ => maskedData_byte n data⟩
  · by_cases hin : c.inWindow addr
    · rw [if_pos hin, if_pos hin]
      have hbad' := hbad.resolve_left (not_lt.mpr hin.1)
      exact ⟨selectWindow_bad _ hin hbad', selectWindow_bad _ hin hbad'⟩
    · rw [if_neg hin, if_neg hin]
      exact ⟨rfl, rfl⟩

end Sys2Proof
end

section
open Sys2Proof Sys2Proof.Machine

namespace Sys2Proof.Machine

/-! ### The operations that store nothing -/

theorem storesPf_eq_false {i : Instr} (hset : ∀ x y l, i ≠ .setpix x y l) (hclear : ∀ l, i ≠ .clear l)
    (hwr : ∀ n a v, i ≠ .pfwr n a v) : storesPf i = false := by
  cases i with
  | setpix x y l => exact absurd rfl (hset x y l)
  | clear l => exact absurd rfl (hclear l)
  | pfwr n a v => exact absurd rfl (hwr n a v)
  | _ => rfl

theorem storesSf_eq_false {i : Instr} (hstep : ∀ k a, i ≠ .encstep k a) : storesSf i = false := by
  cases i with
  | encstep k a => exact absurd rfl (hstep k a)
  | _ => rfl

/-- Settles O57: the frame of every operation leaves both memories and the draw, on which alone a byte depends. -/
theorem nonStoringOperationsKeepTheMemories : Obligations.NonStoringOperationsKeepTheMemories := by
  intro s t i h hset hclear hwr hstep
  obtain ⟨-, hdraw, -, -, -, hpf, hsf, -, -⟩ := exec_frame h
  have hp := State.pfByte_congr (hpf (storesPf_eq_false hset hclear hwr)) hdraw
  have hs := State.sfByte_congr (hsf (storesSf_eq_false hstep)) hdraw
  exact ⟨congrFun hp, fun k => congrFun (congrFun hs k)⟩

end Sys2Proof.Machine
end

section
open Sys2Proof Sys2Proof.Machine

namespace Sys2Proof.Machine

/-! ### What clears the swap flag -/

/-- A TICK clears the flag only where it takes the slot to 0 (R168 step 5). -/
theorem eq_zero_of_swapAfterTick {i : Slot} (h : swapAfterTick i true = false) : i = 0 := by
  simpa [swapAfterTick] using h

/-- Of all operations TICK alone clears the flag, and it does so at the wrap (R71 item 4, R168). -/
theorem exec_clears_flag {i : Instr} {s t : State} (h : exec i s = .next t) (hs : s.cyc.swapPending = true)
    (ht : t.cyc.swapPending = false) : i = .tick ∧ s.tickEnabled ∧ s.cyc.index = 3 ∧ t.cyc.index = 0 := by
  have changed : t.cyc.swapPending ≠ s.cyc.swapPending := by simp [hs, ht]
  cases i with
  | encode =>
    rcases State.startRun_next h with ⟨-, rfl⟩ | ⟨-, -, rfl⟩ <;> exact absurd rfl changed
  | updswap =>
    rcases State.startRun_next h with ⟨-, rfl⟩ | ⟨-, -, rfl⟩ <;> exact absurd rfl changed
  | swapreq =>
    rcases execSwapreq_next h with ⟨-, rfl⟩ | ⟨-, -, rfl⟩
    · exact absurd rfl changed
    · cases ht
  | encstep k a =>
    rcases execEncstep_next h with ⟨-, rfl⟩ | ⟨-, -, rfl⟩ <;> exact absurd rfl changed
  | encdone =>
    rcases execEncdone_next h with ⟨-, rfl⟩ | ⟨-, rfl⟩
    · exact absurd rfl changed
    · simp [hs] at ht
  | tick =>
    rcases execTick_next h with ⟨-, rfl⟩ | ⟨hen, rfl⟩
    · exact absurd rfl changed
    · have hwrap : s.cyc.index + 1 = 0 := eq_zero_of_swapAfterTick (by simpa [hs] using ht)
      have hlast : s.cyc.index = 3 := (by decide : ∀ i : Slot, i + 1 = 0 → i = 3) _ hwrap
      exact ⟨rfl, hen, hlast, hwrap⟩
  | _ => exact absurd ((exec_control_frame h).1 rfl).swapPending changed

/-- TICK is the step of its own turn alone. -/
theorem turn_of_agentStep_tick {u : Turn} (h : u.agentStep = some .tick) : u = .tick := by
  cases u <;> simp [Turn.agentStep] at h ⊢

/-- Settles O50: a step other than a reset is one operation or leaves the flag, TICK is the one operation that clears it,
and TICK is none of the HOST's. -/
theorem onlyAWrapClearsTheFlag : Obligations.OnlyAWrapClearsTheFlag := by
  intro s t hreset h hs ht
  obtain ⟨-, hb | ⟨i, u, hturn, hu, hb⟩ | ⟨hr, -⟩ | ⟨-, -, -, rfl⟩⟩ := step_block h
  · obtain ⟨-, -, -, hcyc, -⟩ := State.fields_of_block hb
    simp [hcyc, hs] at ht
  · obtain ⟨-, -, -, hcyc, -⟩ := State.fields_of_block hb
    rw [hcyc] at ht ⊢
    obtain ⟨rfl, ⟨hrun, hirq⟩, hlast, hzero⟩ := exec_clears_flag (s := s.endTurn) hu hs ht
    rcases hturn with ⟨-, hhost, -⟩ | hagent
    · cases hhost
    · exact ⟨turn_of_agentStep_tick hagent, hrun, hirq, hlast, hzero⟩
  · exact absurd hr hreset
  · simp [hs] at ht

end Sys2Proof.Machine
end

section
open Sys2Proof Sys2Proof.Machine

namespace Sys2Proof.Machine

/-! ### The agents always answer a next state -/

/-- A half ends inside the plane (R6, R161). -/
theorem halfStart_add_le {c : Config} (hok : c.Ok) (h : Half) : c.halfStart h + 4 * c.halfWords ≤ c.planeBytes := by
  obtain ⟨hwords, hbytes, -⟩ := Config.halves hok
  cases h <;> simp only [Config.halfStart] <;> omega

/-- While words remain, the next word a channel reads lies in its plane (R65). -/
theorem HalfOk.read_fits {c : Config} {i : Slot} {h : Half} {ch : Channel} {ln : Lane} (hok : c.Ok)
    (hh : HalfOk c i h ch ln) (hr : 0 < ch.remaining) : ch.rdOff + 4 ≤ c.planeBytes := by
  have hend := halfStart_add_le hok h
  have hp := hh.pointer
  have hb := hh.bound
  omega

theorem execXfer_answers {s : State} (hok : s.cfg.Ok) (hs : s.ControlInv) (g : Half) :
    ∃ t, execXfer g s = .next t := by
  unfold execXfer
  split
  · rename_i hen
    obtain ⟨hrun, -, hrem, -⟩ := hen
    exact ⟨_, if_pos ((hs.running hrun g).read_fits hok hrem)⟩
  · exact ⟨_, rfl⟩

/-- A member of the work set lies in its plane (R34). -/
theorem execEncstep_answers {s : State} (hs : s.ControlInv) (k : Slot) (a : Nat) :
    ∃ t, execEncstep k a s = .next t := by
  unfold execEncstep
  split
  · rename_i hen
    exact ⟨_, if_pos (hs.todoRange (k, a) hen.2)⟩
  · exact ⟨_, rfl⟩

theorem execEncdone_answers (s : State) : ∃ t, execEncdone s = .next t := by
  unfold execEncdone
  split <;> exact ⟨_, rfl⟩

theorem execRefdone_answers (s : State) : ∃ t, execRefdone s = .next t := by
  unfold execRefdone
  split <;> exact ⟨_, rfl⟩

theorem execTick_answers (s : State) : ∃ t, execTick s = .next t := by
  unfold execTick
  split <;> exact ⟨_, rfl⟩

/-- Every turn but the HOST's is answered by a next state: XFER and ENCSTEP, the only agents' steps with a fault, stay inside
their planes (R65, R172, R199). -/
theorem runTurn_answers {u : Turn} {s : State} (hu : u ≠ .host) (hok : s.cfg.Ok) (hs : s.ControlInv) :
    ∃ t, runTurn u s = .next t := by
  cases u with
  | host => exact absurd rfl hu
  | encStep k a => exact execEncstep_answers hs k a
  | encDone => exact execEncdone_answers s
  | xfer g => exact execXfer_answers hok hs g
  | refDone => exact execRefdone_answers s
  | tick => exact execTick_answers s
  | reset => exact ⟨_, rfl⟩

/-- Settles O43: a live state takes its turn, and no turn but the HOST's stops. -/
theorem agentsNeverStop : Obligations.AgentsNeverStop := by
  intro s hok hs hlive hhost
  rw [step_eq hok hlive]
  exact runTurn_answers hhost hok (hs.of_block s.endTurn_block)

end Sys2Proof.Machine
end

section
open Sys2Proof Sys2Proof.Machine
open Sys2Proof.Laws.CommandWord (row commandWord_masked)

namespace Sys2Proof

/-! ### The opcode of a command word -/

/-- A word in the row of an opcode has that opcode (R91, R94). -/
theorem opcode_of_masked {w : Word} {op : BitVec 4} (h : w &&& 0xF0000000 = commandWord op 0 0 0) :
    w.extractLsb' 28 4 = op :=
  calc w.extractLsb' 28 4
    _ = (w &&& 0xF0000000).extractLsb' 28 4 := by rw [BitVec.extractLsb'_and]; exact BitVec.and_allOnes.symm
    _ = op := by rw [h, commandWord_op]

/-- Every word is made of its four fields (R91). -/
theorem commandWord_fields (w : Word) :
    commandWord (w.extractLsb' 28 4) (w.extractLsb' 24 4) (w.extractLsb' 12 12) (w.extractLsb' 0 12) = w := by
  rw [commandWord, BitVec.extractLsb'_append_extractLsb'_eq_extractLsb' (rfl : 28 = 24 + 4),
    BitVec.extractLsb'_append_extractLsb'_eq_extractLsb' (rfl : 24 = 12 + 12),
    BitVec.extractLsb'_append_extractLsb'_eq_extractLsb' (rfl : 12 = 0 + 12)]
  exact BitVec.extractLsb'_eq_self

/-- A word lies in the row of its opcode (R91, R94). -/
theorem masked_of_opcode {w : Word} (op : BitVec 4) (h : (w.extractLsb' 28 4).toNat = op.toNat) :
    w &&& 0xF0000000 = commandWord op 0 0 0 := by
  rw [← BitVec.eq_of_toNat_eq h]
  conv_lhs => rw [← commandWord_fields w]
  exact commandWord_masked _ _ _ _

/-- Bit 31, the mask of the upper reserved row, is the top bit of the opcode (R96). -/
theorem masked_bit31_iff (w : Word) : w &&& 0x80000000 = 0x80000000 ↔ 8 ≤ (w.extractLsb' 28 4).toNat := by
  have hand : w &&& 0x80000000 = if w.getLsbD 31 then 0x80000000 else 0 := BitVec.and_twoPow w 31
  have hmsb : w.getLsbD 31 = decide (8 ≤ (w.extractLsb' 28 4).toNat) := by
    rw [← BitVec.msb_eq_decide (w.extractLsb' 28 4), BitVec.msb_eq_getLsbD_last, BitVec.getLsbD_extractLsb']
    rfl
  rw [hand, hmsb]
  simp

/-! ### Decoding: one equation per row of the opcode map -/

theorem decodeCommand_reserved0 {w : Word} (h : w &&& 0xF0000000 = 0x00000000) :
    decodeCommand w = .reserved0 (w.extractLsb' 0 28) := by
  rw [decodeCommand, opcode_of_masked (op := 0) h]; rfl

theorem decodeCommand_setpix {w : Word} (h : w &&& 0xF0000000 = 0x10000000) :
    decodeCommand w = .setpix (w.extractLsb' 0 12) (w.extractLsb' 12 12) (w.extractLsb' 24 4) := by
  rw [decodeCommand, opcode_of_masked (op := 1) h]; rfl

theorem decodeCommand_getpix {w : Word} (h : w &&& 0xF0000000 = 0x20000000) :
    decodeCommand w = .getpix (w.extractLsb' 0 12) (w.extractLsb' 12 12) := by
  rw [decodeCommand, opcode_of_masked (op := 2) h]; rfl

theorem decodeCommand_clear {w : Word} (h : w &&& 0xF0000000 = 0x30000000) :
    decodeCommand w = .clear (w.extractLsb' 24 4) := by
  rw [decodeCommand, opcode_of_masked (op := 3) h]; rfl

theorem decodeCommand_encode {w : Word} (h : w &&& 0xF0000000 = 0x40000000) : decodeCommand w = .encode := by
  rw [decodeCommand, opcode_of_masked (op := 4) h]; rfl

theorem decodeCommand_swapreq {w : Word} (h : w &&& 0xF0000000 = 0x50000000) : decodeCommand w = .swapreq := by
  rw [decodeCommand, opcode_of_masked (op := 5) h]; rfl

theorem decodeCommand_updswap {w : Word} (h : w &&& 0xF0000000 = 0x60000000) : decodeCommand w = .updswap := by
  rw [decodeCommand, opcode_of_masked (op := 6) h]; rfl

theorem decodeCommand_start {w : Word} (h : w &&& 0xF0000000 = 0x70000000) : decodeCommand w = .start := by
  rw [decodeCommand, opcode_of_masked (op := 7) h]; rfl

theorem decodeCommand_reserved8F {w : Word} (h : w &&& 0x80000000 = 0x80000000) :
    decodeCommand w = .reserved8F (w.extractLsb' 0 31) := by
  obtain ⟨n, hn⟩ := Nat.exists_eq_add_of_le' ((masked_bit31_iff w).mp h)
  rw [decodeCommand, hn]; rfl

/-- A word lies in the row of the operation it decodes to (R94, R96). -/
theorem masked_of_decodeCommand {w : Word} {mask bits : Word} (h : row (decodeCommand w) = some (mask, bits)) :
    w &&& mask = bits := by
  unfold decodeCommand at h
  split at h <;> cases h
  · exact masked_of_opcode 0 ‹_›
  · exact masked_of_opcode 1 ‹_›
  · exact masked_of_opcode 2 ‹_›
  · exact masked_of_opcode 3 ‹_›
  · exact masked_of_opcode 4 ‹_›
  · exact masked_of_opcode 5 ‹_›
  · exact masked_of_opcode 6 ‹_›
  · exact masked_of_opcode 7 ‹_›
  · simp only [imp_false] at *
    exact (masked_bit31_iff w).mpr (by omega)

/-- An equation of a row is an equivalence: no other row decodes to an operation of this one. -/
theorem masked_iff_decodeCommand {w mask bits : Word} {i : Instr} (hr : row i = some (mask, bits))
    (hd : w &&& mask = bits → decodeCommand w = i) : w &&& mask = bits ↔ decodeCommand w = i :=
  ⟨hd, fun h => masked_of_decodeCommand (h ▸ hr)⟩

/-- Settles O3: each row's equation one way, and the row of the decoded operation the other way. -/
theorem opcodeMapByMatchAndMask : Obligations.OpcodeMapByMatchAndMask := fun _ =>
  ⟨masked_iff_decodeCommand rfl decodeCommand_setpix, masked_iff_decodeCommand rfl decodeCommand_getpix,
    masked_iff_decodeCommand rfl decodeCommand_clear, masked_iff_decodeCommand rfl decodeCommand_encode,
    masked_iff_decodeCommand rfl decodeCommand_swapreq, masked_iff_decodeCommand rfl decodeCommand_updswap,
    masked_iff_decodeCommand rfl decodeCommand_start, masked_iff_decodeCommand rfl decodeCommand_reserved0,
    masked_iff_decodeCommand rfl decodeCommand_reserved8F⟩

/-! ### Decoding the word of an operation -/

theorem decodeCommand_setpixWord (l : BitVec 4) (y x : BitVec 12) :
    decodeCommand (commandWord 1 l y x) = .setpix x y l := by
  rw [decodeCommand_setpix (commandWord_masked 1 l y x), commandWord_x, commandWord_y, commandWord_level]

theorem decodeCommand_getpixWord (l : BitVec 4) (y x : BitVec 12) :
    decodeCommand (commandWord 2 l y x) = .getpix x y := by
  rw [decodeCommand_getpix (commandWord_masked 2 l y x), commandWord_x, commandWord_y]

theorem decodeCommand_clearWord (l : BitVec 4) (y x : BitVec 12) :
    decodeCommand (commandWord 3 l y x) = .clear l := by
  rw [decodeCommand_clear (commandWord_masked 3 l y x), commandWord_level]

/-- The payload of a reserved word is its bits below the opcode (R96). -/
theorem reserved0_payload (p : BitVec 28) : (show Word from 0#4 ++ p).extractLsb' 0 28 = p :=
  extract_eq fun i hi => by rw [reserved0_getLsbD, Nat.zero_add, if_pos hi]

theorem reserved8F_payload (p : BitVec 31) : (show Word from 1#1 ++ p).extractLsb' 0 31 = p :=
  extract_eq fun i hi => by rw [reserved8F_getLsbD, Nat.zero_add, if_pos hi]

/-- Settles O1: the word of an operation lies in its row, whose equation reads the operands back from their fields. -/
theorem decodeOfEncode : Obligations.DecodeOfEncode := by
  intro i w h
  cases i with
  | setpix x y l => cases h; exact decodeCommand_setpixWord l y x
  | getpix x y => cases h; exact decodeCommand_getpixWord 0 y x
  | clear l => cases h; exact decodeCommand_clearWord l 0 0
  | encode => cases h; exact decodeCommand_encode (commandWord_masked 4 0 0 0)
  | swapreq => cases h; exact decodeCommand_swapreq (commandWord_masked 5 0 0 0)
  | updswap => cases h; exact decodeCommand_updswap (commandWord_masked 6 0 0 0)
  | start => cases h; exact decodeCommand_start (commandWord_masked 7 0 0 0)
  | reserved0 p =>
    cases h
    obtain ⟨_, ⟨⟩, hrow⟩ := Laws.CommandWord.reserved0 p
    exact (decodeCommand_reserved0 hrow).trans (congrArg _ (reserved0_payload p))
  | reserved8F p =>
    cases h
    obtain ⟨_, ⟨⟩, hrow⟩ := Laws.CommandWord.reserved8F p
    exact (decodeCommand_reserved8F hrow).trans (congrArg _ (reserved8F_payload p))
  | _ => cases h

/-- Settles O4: a reserved field lies outside the mask of its row, and the row's equation does not read it. -/
theorem reservedFieldsIgnored : Obligations.ReservedFieldsIgnored := fun l y x =>
  ⟨decodeCommand_getpixWord l y x, decodeCommand_clearWord l y x,
    decodeCommand_encode (commandWord_masked 4 l y x), decodeCommand_swapreq (commandWord_masked 5 l y x),
    decodeCommand_updswap (commandWord_masked 6 l y x), decodeCommand_start (commandWord_masked 7 l y x)⟩

/-- Settles O5, by decoding the sixteen words. -/
theorem sampleWordsDecode : Obligations.SampleWordsDecode := by
  unfold Obligations.SampleWordsDecode
  decide

end Sys2Proof
end

section
open Sys2Proof Sys2Proof.Machine

namespace Sys2Proof

/-! ### The bus access of an operation -/

/-- The registers lie in the register block (R6, R62). -/
theorem inRegs_register {c : Config} (hok : c.Ok) {o : Nat} (ho : o < 12) : c.inRegs (c.regBase + o) := by
  obtain ⟨-, -, -, -, hsize, -⟩ := hok
  exact ⟨by omega, by omega⟩

/-- A 32-bit write of CMD selects the command it carries, where REG_BASE is a multiple of 4 (R66, R99). -/
theorem decodeAccess_cmd {c : Config} (hok : c.Ok) (hreg : c.regBase % 4 = 0) (w : Word) :
    decodeAccess c (.write c.regBase 4 w) = .op (decodeCommand w) := by
  have hin : c.inRegs c.regBase := inRegs_register hok (o := 0) (by omega)
  rw [decodeAccess_write_register hin, if_pos ⟨rfl, hreg⟩, Nat.sub_self]
  rfl

theorem decodeAccess_pixdata {c : Config} (hok : c.Ok) (hreg : c.regBase % 4 = 0) :
    decodeAccess c (.read (c.regBase + 8) 4) = .op .rdpixdata := by
  rw [decodeAccess_read_register (inRegs_register hok (by omega)), if_pos ⟨rfl, by omega⟩, Nat.add_sub_cancel_left]
  rfl

/-- The access of an operation that has a command word selects the operation. -/
theorem decodeAccess_commandAccess {c : Config} {i : Instr} {b : BusAccess} (hok : c.Ok) (hreg : c.regBase % 4 = 0)
    (h : (encode i).map (.write c.regBase 4) = some b) : decodeAccess c b = .op i := by
  obtain ⟨w, hw, rfl⟩ := Option.map_eq_some_iff.mp h
  rw [decodeAccess_cmd hok hreg, decodeOfEncode i w hw]

/-- The register block does not reach into the PF window (R62). -/
theorem not_inRegs_of_inWindow {c : Config} (hok : c.Ok) {addr : Nat} (h : c.inWindow addr) : ¬c.inRegs addr := by
  obtain ⟨-, -, -, -, -, hdisjoint⟩ := hok
  obtain ⟨hlo, hhi⟩ := h
  rintro ⟨rlo, rhi⟩
  rcases hdisjoint with hd | hd <;> omega

theorem inWindow_of_windowOk {c : Config} {n : Width} {a : Nat} (h : c.windowOk n a) : c.inWindow (c.pfWinBase + a) := by
  obtain ⟨-, hend⟩ := h
  have hpos := n.bytes_pos
  exact ⟨by omega, by omega⟩

/-- Where PF_WIN_BASE is a multiple of 4, an aligned offset has an aligned address (R67). -/
theorem add_mod_bytes {base a : Nat} {n : Width} (hbase : base % 4 = 0) (ha : a % n.bytes = 0) :
    (base + a) % n.bytes = 0 := by
  have hdvd : n.bytes ∣ 4 := by cases n <;> decide
  exact Nat.mod_eq_zero_of_dvd
    (Nat.dvd_add (hdvd.trans (Nat.dvd_of_mod_eq_zero hbase)) (Nat.dvd_of_mod_eq_zero ha))

theorem selectWindow_offset {c : Config} {n : Width} {a : Nat} (op : Width → Nat → Instr) (hwin : c.pfWinBase % 4 = 0)
    (h : c.windowOk n a) : selectWindow c (c.pfWinBase + a) n.bytes op = .op (op n a) := by
  rw [selectWindow_bytes, Nat.add_sub_cancel_left]
  exact if_pos ⟨add_mod_bytes hwin h.1, h⟩

/-- Both checks of a PF window write (R67, R125). -/
theorem wellFormed_pfwr {n : Width} {a : Nat} {v : Word} :
    (Instr.pfwr n a v).wellFormed = true ↔ a % n.bytes = 0 ∧ v.toNat < 2 ^ (8 * n.bytes) := by
  simp [Instr.wellFormed]

/-- A value that has no bits beyond its n bytes is kept by the mask of a PF window write (R125). -/
theorem maskedData_eq {n : Width} {v : Word} (h : v.toNat < 2 ^ (8 * n.bytes)) :
    v &&& BitVec.ofNat 32 (2 ^ (8 * n.bytes) - 1) = v := by
  have hmask : 2 ^ (8 * n.bytes) - 1 < 2 ^ 32 := by cases n <;> decide
  apply BitVec.eq_of_toNat_eq
  rw [BitVec.toNat_and, BitVec.toNat_ofNat, Nat.mod_eq_of_lt hmask, Nat.and_two_pow_sub_one_eq_mod, Nat.mod_eq_of_lt h]

/-- Settles O2: a command by the round trip of its word, a register read by its offset, and a window operation by its offset
in PF, which the mask of a narrow write leaves as it is. -/
theorem accessSelectsItsOperation : Obligations.AccessSelectsItsOperation := by
  intro c i b hok hreg hwin hwf hrd hwr h
  cases i with
  | rdstatus => cases h; exact (decodeAccess_status hok).trans (if_pos hreg)
  | rdpixdata => cases h; exact decodeAccess_pixdata hok hreg
  | pfrd n a =>
    cases h
    have hin := hrd n a rfl
    rw [decodeAccess_read_window (not_inRegs_of_inWindow hok (inWindow_of_windowOk hin)),
      if_pos (inWindow_of_windowOk hin), selectWindow_offset _ hwin hin]
  | pfwr n a v =>
    cases h
    have hin := hwr n a v rfl
    rw [decodeAccess_write_window (not_inRegs_of_inWindow hok (inWindow_of_windowOk hin)),
      if_pos (inWindow_of_windowOk hin), selectWindow_offset _ hwin hin, maskedData_eq (wellFormed_pfwr.mp hwf).2]
  | _ => exact decodeAccess_commandAccess hok hreg h

end Sys2Proof
end

section
open Sys2Proof Sys2Proof.Machine

namespace Sys2Proof.Machine

/-! ### The command port during an encoder run -/

/-- The port holds the HOST's operations but the two register reads (R95). -/
theorem heldAtPort_iff (i : Instr) :
    heldAtPort i = true ↔ i.isHostOp = true ∧ i ≠ .rdstatus ∧ i ≠ .rdpixdata := by
  cases i <;> simp [heldAtPort, Instr.isHostOp]

/-- Every operation that stores in PF is held at the port (R95, R129). -/
theorem heldAtPort_of_storesPf {i : Instr} (h : storesPf i = true) : heldAtPort i = true := by
  cases i with
  | setpix x y l => rfl
  | clear l => rfl
  | pfwr n a v => rfl
  | _ => cases h

theorem runAccess_held {s : State} {b : BusAccess} {i : Instr} (hi : decodeAccess s.cfg b = .op i)
    (hh : heldAtPort i = true) (hb : s.enc.busy = true) : runAccess b s = .next s := by
  simp only [runAccess, hi]
  exact if_pos ⟨hh, hb⟩

/-- Settles O10: every operation of the HOST's but the two register reads is held, and those two answer at once. -/
theorem portHoldsWhileBusy : Obligations.PortHoldsWhileBusy := by
  intro s b i hok hf ht hb hi hbusy
  refine ⟨fun h1 h2 => ?_, ?_⟩
  · have hh : heldAtPort i = true := (heldAtPort_iff i).mpr ⟨decodeAccess_isHostOp hi, h1, h2⟩
    rw [step_hostAccess hok (.inl hf) ht hb]
    exact runAccess_held (s := s.endTurn) hi hh hbusy
  · rintro (rfl | rfl) <;> rw [step_hostOp hok (.inl hf) ht hb hi nofun] <;> exact ⟨_, rfl, rfl, rfl⟩

/-- During a run no operation that a step takes stores in PF: the HOST's are held, and no agent has one. -/
theorem storesPf_eq_false_of_busy {s : State} {i : Instr} (hbusy : s.enc.busy = true)
    (h : s.turn = .host ∧ i.isHostOp = true ∧ (heldAtPort i = true → s.enc.busy = false) ∨ s.turn.agentStep = some i) :
    storesPf i = false := by
  by_contra hstores
  have hh : heldAtPort i = true := heldAtPort_of_storesPf (by simpa using hstores)
  rcases h with ⟨-, -, hfree⟩ | hagent
  · simp [hfree hh] at hbusy
  · have hhost := ((heldAtPort_iff i).mp hh).1
    simp [agentStep_not_hostOp hagent] at hhost

/-- PF and its power-on draw are part of the block. -/
theorem State.pf_draw_of_block {s t : State} (h : t.block = s.block) : t.pf = s.pf ∧ t.draw = s.draw := by
  obtain ⟨-, hpf, -, -, -, -, -, -, -, -, -, -, hdraw, -⟩ := State.fields_of_block h
  exact ⟨hpf, hdraw⟩

/-- Settles O31: an operation that a step takes during a run stores nothing in PF, and a step that takes none leaves the
block or ends the run. -/
theorem pfIsStableDuringARun : Obligations.PfIsStableDuringARun := by
  intro s t hbusy hreset h
  obtain ⟨hpf, hdraw⟩ : t.pf = s.pf ∧ t.draw = s.draw := by
    obtain ⟨-, hb | ⟨i, u, hturn, hu, hb⟩ | ⟨hr, -⟩ | ⟨-, hfree, -, -⟩⟩ := step_block h
    · exact State.pf_draw_of_block hb
    · obtain ⟨hpf, hdraw⟩ := State.pf_draw_of_block hb
      obtain ⟨-, hdraw', -, -, -, hpf', -⟩ := exec_frame hu
      exact ⟨hpf.trans (hpf' (storesPf_eq_false_of_busy hbusy hturn)), hdraw.trans hdraw'⟩
    · exact absurd hr hreset
    · simp [hfree] at hbusy
  exact ⟨hpf, congrFun (State.pfByte_congr hpf hdraw)⟩

/-- Settles O18: the two reserved rows have the refusal as their meaning. -/
theorem reservedOpcodesRefused : Obligations.ReservedOpcodesRefused :=
  fun _ _ _ => ⟨rfl, rfl⟩

/-- Settles O19: each of these operations tests `ENC.busy` first, the two window operations after their constraint. -/
theorem heldOperationsChangeNothing : Obligations.HeldOperationsChangeNothing := by
  intro s i hbusy hhost hst hpx hr0 hr8 hrd hwr
  cases i with
  | rdstatus => exact absurd rfl hst
  | rdpixdata => exact absurd rfl hpx
  | reserved0 p => exact absurd rfl (hr0 p)
  | reserved8F p => exact absurd rfl (hr8 p)
  | pfrd n a => exact (if_pos (hrd n a rfl)).trans (if_pos hbusy)
  | pfwr n a v => exact (if_pos (hwr n a v rfl)).trans (if_pos hbusy)
  | encstep k a => cases hhost
  | encdone => cases hhost
  | xfer h => cases hhost
  | refdone => cases hhost
  | tick => cases hhost
  | _ => exact if_pos hbusy

end Sys2Proof.Machine
end

section
open Sys2Proof Sys2Proof.Machine

namespace Sys2Proof

/-! ### The byte of a column, and the clamped level in a byte -/

/-- A column of the panel lies in a byte of its row (R6). -/
theorem Config.div_four_lt_pfStride {c : Config} {x : Nat} (h : x < c.width) : x / 4 < c.pfStride := by
  unfold Config.pfStride
  omega

theorem clampLevel_setWidth (level : BitVec 4) :
    (clampLevel level).setWidth 8 = BitVec.ofNat 8 (min level.toNat 3) := by
  revert level
  decide

theorem fillByte_clampLevel (level : BitVec 4) :
    fillByte (clampLevel level) = BitVec.ofNat 8 (min level.toNat 3 * 0x55) := by
  revert level
  decide

namespace Machine

/-! ### The framebuffer operations while the port is free -/

section
variable {s : State} {x y : BitVec 12} {level : BitVec 4} {n : Width} {a : Nat} {v : Word}

theorem exec_setpix_outOfBounds (hfree : s.enc.busy = false) (hout : ¬s.cfg.inBounds x.toInt y.toInt) :
    exec (.setpix x y level) s = .next s.accept :=
  (if_neg (Bool.eq_false_iff.mp hfree)).trans (if_neg hout)

theorem exec_setpix_inBounds (hfree : s.enc.busy = false) (hin : s.cfg.inBounds x.toInt y.toInt) :
    exec (.setpix x y level) s = .next (s.setPixel x.toInt.toNat y.toInt.toNat (clampLevel level)).accept :=
  (if_neg (Bool.eq_false_iff.mp hfree)).trans (if_pos hin)

theorem exec_getpix_outOfBounds (hfree : s.enc.busy = false) (hout : ¬s.cfg.inBounds x.toInt y.toInt) :
    exec (.getpix x y) s = .next { s.accept with pixdata := 0 } :=
  (if_neg (Bool.eq_false_iff.mp hfree)).trans (if_neg hout)

theorem exec_getpix_inBounds (hfree : s.enc.busy = false) (hin : s.cfg.inBounds x.toInt y.toInt) :
    exec (.getpix x y) s = .next { s.accept with pixdata := s.pfPix x.toInt.toNat y.toInt.toNat } :=
  (if_neg (Bool.eq_false_iff.mp hfree)).trans (if_pos hin)

theorem exec_clear (hfree : s.enc.busy = false) :
    exec (.clear level) s =
      .next { s.accept with pf := Memory.fill s.pf s.cfg.pfBytes (fillByte (clampLevel level)) } :=
  if_neg (Bool.eq_false_iff.mp hfree)

theorem exec_pfrd (hfree : s.enc.busy = false) (hok : s.cfg.windowOk n a) :
    exec (.pfrd n a) s = .next (s.answer (readLE s.pfByte a n.bytes)) :=
  (if_pos hok).trans (if_neg (Bool.eq_false_iff.mp hfree))

theorem exec_pfwr (hfree : s.enc.busy = false) (hok : s.cfg.windowOk n a) :
    exec (.pfwr n a v) s = .next { s.accept with pf := Memory.writeLE s.pf a n.bytes v } :=
  (if_pos hok).trans (if_neg (Bool.eq_false_iff.mp hfree))

end

/-! ### The bytes and pixels of PF after a store -/

theorem State.pfByte_fill (s : State) (size : Nat) (b : Byte) (a : Nat) :
    ({ s.accept with pf := Memory.fill s.pf size b } : State).pfByte a = if a < size then b else s.pfByte a := by
  simp only [State.pfByte, State.accept_draw, Memory.read_fill]
  split <;> rfl

theorem State.pfByte_writeLE (s : State) (a n : Nat) (v : Word) (b : Nat) :
    ({ s.accept with pf := Memory.writeLE s.pf a n v } : State).pfByte b =
      if a ≤ b ∧ b < a + n then v.extractLsb' (8 * (b - a)) 8 else s.pfByte b := by
  simp only [State.pfByte, State.accept_draw, Memory.read_writeLE]
  split <;> rfl

/-- The pixels of PF after a pixel is put, pad pixels included: a pixel in another byte keeps its byte, one in the same
byte has another field of it (R121, R128). -/
theorem State.pfPix_setPixel (s : State) {x u : Nat} (y v : Nat) (l : Slot) (hx : x / 4 < s.cfg.pfStride)
    (hu : u / 4 < s.cfg.pfStride) :
    (s.setPixel x y l).pfPix u v = if (u, v) = (x, y) then l else s.pfPix u v := by
  have hshift (m : Nat) := s.cfg.pfShift_cases (Nat.mod_lt m four_pos)
  simp only [State.pfPix, State.setPixel_cfg, State.pfByte_setPixel]
  by_cases haddr : s.cfg.pfAddr u v = s.cfg.pfAddr x y
  · rw [if_pos haddr]
    obtain ⟨rfl, hdiv⟩ := Config.pfAddr_inj hu hx haddr
    by_cases hux : u = x
    · subst hux
      rw [if_pos rfl, getField_putField_same _ (hshift u)]
    · have hfield : s.cfg.pfShift (u % 4) ≠ s.cfg.pfShift (x % 4) := fun h => by
        have := s.cfg.pfShift_inj (Nat.mod_lt u four_pos) (Nat.mod_lt x four_pos) h
        omega
      rw [if_neg (by simpa using hux), getField_putField_ne _ (hshift x) (hshift u) hfield]
  · have hne : (u, v) ≠ (x, y) := fun h => haddr (by cases h; rfl)
    rw [if_neg haddr, if_neg hne]

/-! ### The obligations -/

/-- Settles O12: `setPixel` puts one field of one byte, and no two pixels of PF share a field. -/
theorem setpixPutsItsPixel : Obligations.SetpixPutsItsPixel := by
  intro s x y level hfree
  refine ⟨exec_setpix_outOfBounds hfree, fun hin px py hpx hpy => ?_⟩
  obtain rfl : px = x.toInt.toNat := by omega
  obtain rfl : py = y.toInt.toNat := by omega
  have hcol : x.toInt.toNat / 4 < s.cfg.pfStride := Config.div_four_lt_pfStride (by omega)
  refine ⟨_, exec_setpix_inBounds hfree hin, rfl, ?_, fun b hb => ?_, fun _ _ => rfl, ?_, fun u v hu huv => ?_⟩
  · rw [← clampLevel_setWidth]
    exact (s.pfByte_setPixel ..).trans (if_pos rfl)
  · exact (s.pfByte_setPixel ..).trans (if_neg hb)
  · exact (s.pfPix_setPixel _ _ _ hcol hcol).trans (if_pos rfl)
  · exact (s.pfPix_setPixel _ _ _ hcol hu).trans (if_neg huv)

/-- Settles O13: the two branches of the bounds test, and the frame of every other operation. -/
theorem getpixLatchesTheLevel : Obligations.GetpixLatchesTheLevel := by
  refine ⟨fun s x y hfree => ⟨exec_getpix_outOfBounds hfree, fun px py hin hpx hpy => ?_⟩, fun s t i hi h => ?_⟩
  · obtain rfl : px = x.toInt.toNat := by omega
    obtain rfl : py = y.toInt.toNat := by omega
    exact exec_getpix_inBounds hfree hin
  · obtain ⟨-, -, -, -, -, -, -, -, hpixdata⟩ := exec_frame h
    exact hpixdata hi

/-- Settles O14: every byte below PF_BYTES is the fill byte, and each field of it is the clamped level. -/
theorem clearFillsTheSurface : Obligations.ClearFillsTheSurface := by
  intro s level hfree
  refine ⟨_, exec_clear hfree, rfl, fun a ha => ?_, fun a ha => ?_, fun _ _ => rfl, fun x y hx hy => ?_⟩
  · rw [State.pfByte_fill, if_pos ha, fillByte_clampLevel]
  · rw [State.pfByte_fill, if_neg (by omega)]
  · have haddr : s.cfg.pfAddr x y < s.cfg.pfBytes := Config.pfAddr_lt_of_inBounds hx hy
    change getField (State.pfByte _ (s.cfg.pfAddr x y)) (s.cfg.pfShift (x % 4)) = clampLevel level
    rw [State.pfByte_fill, if_pos haddr]
    exact getField_fillByte _ (s.cfg.pfShift_cases (Nat.mod_lt x four_pos))

/-- Settles O15: the answer is the little-endian read of PF, byte by byte. -/
theorem pfrdAnswersItsBytes : Obligations.PfrdAnswersItsBytes := by
  refine fun s n a => ⟨fun h => if_neg h, fun hfree hok => ?_⟩
  exact ⟨_, exec_pfrd hfree hok, rfl, fun _ => rfl, fun _ _ => rfl, fun i hi => readLE_byte _ _ _ _ hi n.bytes_le⟩

/-- Settles O16: the little-endian write stores its n bytes at a and no other. -/
theorem pfwrStoresItsBytes : Obligations.PfwrStoresItsBytes := by
  refine fun s n a v => ⟨fun h => if_neg h, fun hfree hok => ?_⟩
  refine ⟨_, exec_pfwr hfree hok, rfl, fun i hi => ?_, fun b hb => ?_, fun _ _ => rfl⟩
  · rw [State.pfByte_writeLE, if_pos (by omega), Nat.add_sub_cancel_left]
  · rw [State.pfByte_writeLE, if_neg (by omega)]

/-- Settles O17: RDPIXDATA tests nothing, and widening the latched level keeps its value. -/
theorem rdpixdataAnswersTheLevel : Obligations.RdpixdataAnswersTheLevel :=
  fun _ => ⟨_, rfl, rfl, BitVec.toNat_setWidth_of_le (by decide)⟩

end Machine

end Sys2Proof
end

section
open Sys2Proof Sys2Proof.Machine

namespace Sys2Proof

/-! ### The dither function -/

section
variable (k : Slot) (x y : Nat)

@[simp] theorem lit_level_zero : lit 0 k x y = false := rfl

theorem lit_level_one : lit 1 k x y = decide (k.toNat = (x + y) % 4) := rfl

theorem lit_level_two : lit 2 k x y = decide (k = 0 ∨ k = 2) := rfl

@[simp] theorem lit_level_three : lit 3 k x y = true := rfl

end

theorem level_cases (level : Slot) : level = 0 ∨ level = 1 ∨ level = 2 ∨ level = 3 := by
  revert level
  decide

/-- Settles O21: the four levels, one equation each. -/
theorem ditherTable : Obligations.DitherTable := fun k x y =>
  ⟨lit_level_zero k x y, by rw [lit_level_one, decide_eq_true_iff], by rw [lit_level_two, decide_eq_true_iff],
    lit_level_three k x y⟩

/-- A pixel of level 1 is lit in one slot, the one of its phase (R144 (a)). -/
theorem countP_phase {m : Nat} (hm : m < 4) :
    ([0, 1, 2, 3] : List Slot).countP (fun k => decide (k.toNat = m)) = 1 := by
  revert m
  decide

/-- Each phase is the number of a slot. -/
theorem exists_slot_toNat {m : Nat} (hm : m < 4) : ∃ k : Slot, k.toNat = m :=
  ⟨BitVec.ofNatLT m hm, rfl⟩

/-- Settles O20: the count by the four levels, of which level 1 alone looks at the place; and a common slot of two level-1
pixels is the phase of both. -/
theorem litCountsAndPhase : Obligations.LitCountsAndPhase := by
  refine ⟨fun level x y => ?_, fun x1 y1 x2 y2 => ?_⟩
  · rcases level_cases level with rfl | rfl | rfl | rfl
    · rfl
    · exact countP_phase (Nat.mod_lt (x + y) four_pos)
    · rfl
    · rfl
  · simp only [lit_level_one, decide_eq_true_iff]
    constructor
    · rintro ⟨k, h1, h2⟩
      exact h1.symm.trans h2
    · intro h
      obtain ⟨k, hk⟩ := exists_slot_toNat (Nat.mod_lt (x1 + y1) four_pos)
      exact ⟨k, hk, hk.trans h⟩

/-- Level 1 alone tells slot 0 from slot 2, or slot 1 from slot 3 (R144 (e)). -/
theorem lit_repeats {level : Slot} (h : level ≠ 1) (x y : Nat) :
    lit level 0 x y = lit level 2 x y ∧ lit level 1 x y = lit level 3 x y := by
  rcases level_cases level with rfl | rfl | rfl | rfl
  · exact ⟨rfl, rfl⟩
  · exact absurd rfl h
  · exact ⟨rfl, rfl⟩
  · exact ⟨rfl, rfl⟩

namespace Machine

/-! ### The bytes the encoder stores -/

theorem State.encBit_of_lt {s : State} {x : Nat} (h : x < s.cfg.width) (k : Slot) (y : Nat) :
    s.encBit k x y = lit (s.pfPix x y) k x y :=
  if_pos h

theorem State.encBit_pad {s : State} {x : Nat} (h : s.cfg.width ≤ x) (k : Slot) (y : Nat) : s.encBit k x y = false :=
  if_neg (not_lt.mpr h)

/-- Settles O22: the bit at the place of a column is `encBit` of that column, a dithered pixel or a pad bit. -/
theorem encoderByteBits : Obligations.EncoderByteBits := by
  rintro s k a j x y hj rfl rfl
  rw [s.encByte_bit k a hj]
  exact ⟨fun h => State.encBit_of_lt h _ _, fun h => State.encBit_pad h _ _⟩

/-- Two bytes of the encoder at the same offset are equal when the columns in bounds of their row are dithered alike: the
other columns are pad bits in both (R142). -/
theorem State.encByte_eq_of_lit {s u : State} {j k : Slot} {a : Nat} (hc : u.cfg = s.cfg) (ha : a < s.cfg.planeBytes)
    (h : ∀ x y, x < s.cfg.width → y < s.cfg.height → lit (u.pfPix x y) k x y = lit (s.pfPix x y) j x y) :
    u.encByte k a = s.encByte j a := by
  refine byte_ext_sfBitPos s.cfg fun i hi => ?_
  rw [s.encByte_bit j a hi, ← hc, u.encByte_bit k a hi, hc]
  by_cases hx : 8 * (a % s.cfg.sfStride) + i < s.cfg.width
  · rw [State.encBit_of_lt (hc ▸ hx), State.encBit_of_lt hx, h _ _ hx (Config.row_lt ha)]
  · rw [State.encBit_pad (by rw [hc]; omega), State.encBit_pad (by omega)]

/-- Settles O23: equal pixels in bounds are dithered alike. -/
theorem encoderReadsPixelsInBoundsOnly : Obligations.EncoderReadsPixelsInBoundsOnly :=
  fun _ _ hc _ hpix k _ ha => State.encByte_eq_of_lit hc ha fun x y hx hy => congrArg (lit · k x y) (hpix x y hx hy)

/-- Settles O24: with no level 1 in bounds every pixel is dithered alike in slots 0 and 2, and in slots 1 and 3. -/
theorem noLevelOneFramesRepeat : Obligations.NoLevelOneFramesRepeat := fun _ _ hlevel _ ha =>
  ⟨State.encByte_eq_of_lit rfl ha fun x y hx hy => (lit_repeats (hlevel x y hx hy) x y).1,
    State.encByte_eq_of_lit rfl ha fun x y hx hy => (lit_repeats (hlevel x y hx hy) x y).2⟩

/-! ### The encoder's operations when they are enabled -/

section
variable {s : State}

theorem State.startRun_free (hfree : s.enc.busy = false) (hp : s.cyc.swapPending = false) (thenSwap : Bool) :
    s.startRun thenSwap =
      .next { s.accept with enc := { busy := true, thenSwap := thenSwap, todo := fullTodo s.cfg } } :=
  (if_neg (Bool.eq_false_iff.mp hfree)).trans (if_neg (Bool.eq_false_iff.mp hp))

theorem exec_encstep {k : Slot} {a : Nat} (hen : s.encStepEnabled k a) (ha : a < s.cfg.planeBytes) :
    exec (.encstep k a) s = .next { s.writeSf k a (s.encByte k a) with
      enc := { s.enc with todo := s.enc.todo.filter (· ≠ (k, a)) } } :=
  (if_pos hen).trans (if_pos ha)

theorem exec_encdone (hen : s.encDoneEnabled) :
    exec .encdone s = .next { s with
      cyc := { s.cyc with swapPending := s.enc.thenSwap || s.cyc.swapPending }
      enc := { s.enc with busy := false, thenSwap := false } } :=
  if_pos hen

end

/-- The work set of a new run lists no plane byte twice (log 11). -/
theorem fullTodo_nodup (c : Config) : (fullTodo c).Nodup := by
  refine (fullTodo_rising c).imp ?_
  rintro p _ (h | ⟨-, h⟩) rfl <;> exact lt_irrefl _ h

/-- Settles O25: both commands are `startRun` with the full work set. -/
theorem encodeAndUpdswapStartARun : Obligations.EncodeAndUpdswapStartARun := fun s hfree hp =>
  ⟨fullTodo s.cfg, State.startRun_free hfree hp false, State.startRun_free hfree hp true, fullTodo_nodup s.cfg,
    fullTodo_length s.cfg, fun _ _ => mem_fullTodo⟩

/-- Settles O27: an enabled ENCSTEP inside its plane is one write of SF and one removal from the work set. -/
theorem encstepWritesAnyChosenByte : Obligations.EncstepWritesAnyChosenByte := by
  intro s k a hbusy hmem ha
  refine ⟨_, exec_encstep ⟨hbusy, hmem⟩ ha, rfl, ?_, fun j b hne => ?_, fun _ => rfl, fun _ => by simp⟩
  · exact (s.sfByte_writeSf ..).trans (if_pos ⟨rfl, rfl⟩)
  · exact (s.sfByte_writeSf ..).trans (if_neg fun ⟨hj, hb⟩ => hne (Prod.ext hj hb))

/-- Settles O28: the new flag is the disjunction of the run's and the old one, and the work set was empty already. -/
theorem encdoneEndsTheRun : Obligations.EncdoneEndsTheRun := by
  intro s hbusy htodo
  rw [exec_encdone ⟨hbusy, htodo⟩, ← htodo]
  cases s.enc.thenSwap <;> rfl

/-- Settles O30: with nothing left to write the run's invariant speaks of every plane byte, and ENCDONE touches neither PF
nor SF. -/
theorem runEndsWithTheGeneration : Obligations.RunEndsWithTheGeneration := by
  intro s hs hbusy htodo
  refine ⟨_, exec_encdone ⟨hbusy, htodo⟩, fun k a ha => ?_, rfl⟩
  exact hs hbusy k a ha (by simp [htodo])

/-- Settles O36: the condition that fails is the one each meaning tests first. -/
theorem disabledStepsChangeNothing : Obligations.DisabledStepsChangeNothing := fun _ _ _ _ =>
  ⟨fun h => if_neg h, fun h => if_neg h, fun h => if_neg h, fun h => if_neg h, fun h => if_neg h⟩

/-! ### Every step keeps the run's invariant -/

/-- The invariant reads the configuration, the two memories with their draw, and the encoder. -/
theorem State.RunInv.congr {s t : State} (hs : s.RunInv) (hc : t.cfg = s.cfg) (hd : t.draw = s.draw)
    (hp : t.pf = s.pf) (hf : t.sf = s.sf) (he : t.enc = s.enc) : t.RunInv := by
  unfold State.RunInv
  rw [hc, he, State.sfByte_congr hf hd, State.encByte_congr hc hp hd]
  exact hs

theorem State.RunInv.of_block {s t : State} (h : t.block = s.block) (hs : s.RunInv) : t.RunInv := by
  obtain ⟨r, p, n, u, v, rfl⟩ := State.eq_of_block h
  exact hs.congr rfl rfl rfl rfl rfl

/-- Without a run the invariant says nothing. -/
theorem State.RunInv.of_idle {s : State} (h : s.enc.busy = false) : s.RunInv := by
  simp [State.RunInv, h]

/-- A new run has struck nothing from its work set (R145). -/
theorem State.RunInv.startRun {s t : State} {b : Bool} (hs : s.RunInv) (h : s.startRun b = .next t) : t.RunInv := by
  rcases State.startRun_next h with ⟨-, rfl⟩ | ⟨-, -, rfl⟩
  · exact hs
  · exact fun _ k a ha hstruck => absurd (mem_fullTodo.mpr ha) hstruck

/-- What ENCSTEP strikes from the work set is what it writes, and its write leaves PF (R146). -/
theorem State.RunInv.encstep {s t : State} {k : Slot} {a : Nat} (hs : s.RunInv) (h : execEncstep k a s = .next t) :
    t.RunInv := by
  rcases execEncstep_next h with ⟨-, rfl⟩ | ⟨⟨hbusy, -⟩, -, rfl⟩
  · exact hs
  · intro _ j b hb hstruck
    change (s.writeSf k a (s.encByte k a)).sfByte j b = s.encByte j b
    rw [State.sfByte_writeSf]
    by_cases hchosen : j = k ∧ b = a
    · obtain ⟨rfl, rfl⟩ := hchosen
      exact if_pos ⟨rfl, rfl⟩
    · rw [if_neg hchosen]
      exact hs hbusy j b hb fun hmem => hstruck (by simp [hmem, not_and_or.mp hchosen])

theorem State.RunInv.encdone {s t : State} (hs : s.RunInv) (h : execEncdone s = .next t) : t.RunInv := by
  rcases execEncdone_next h with ⟨-, rfl⟩ | ⟨-, rfl⟩
  · exact hs
  · exact .of_idle rfl

/-- An operation that stores in PF is accepted only outside a run (R95). -/
theorem exec_storesPf_next {i : Instr} {s t : State} (hi : storesPf i = true) (h : exec i s = .next t) :
    t = s ∨ s.enc.busy = false := by
  cases i with
  | setpix x y l => exact (execSetpix_next h).imp And.right (Or.elim · And.left And.left)
  | clear l => exact (execClear_next h).imp And.right And.left
  | pfwr n a v => exact (execPfwr_next h).imp And.right And.left
  | _ => cases hi

/-- PF is written only outside a run, and no write of PF begins one (R95, R129). -/
theorem State.RunInv.storesPf {i : Instr} {s t : State} (hs : s.RunInv) (hi : storesPf i = true)
    (he : t.enc = s.enc) (h : exec i s = .next t) : t.RunInv := by
  rcases exec_storesPf_next hi h with rfl | hfree
  · exact hs
  · exact .of_idle (by rw [he, hfree])

theorem execSwapreq_enc {s t : State} (h : execSwapreq s = .next t) : t.enc = s.enc := by
  rcases execSwapreq_next h with ⟨-, rfl⟩ | ⟨-, -, rfl⟩ <;> rfl

theorem execTick_enc {s t : State} (h : execTick s = .next t) : t.enc = s.enc := by
  rcases execTick_next h with ⟨-, rfl⟩ | ⟨-, rfl⟩ <;> rfl

theorem State.RunInv.exec {i : Instr} {s t : State} (hs : s.RunInv) (h : exec i s = .next t) : t.RunInv := by
  obtain ⟨hc, hd, -, -, -, hp, hf, -, -⟩ := exec_frame h
  have henc := (exec_control_frame h).1
  cases i with
  | encode => exact hs.startRun h
  | updswap => exact hs.startRun h
  | encstep k a => exact hs.encstep h
  | encdone => exact hs.encdone h
  | setpix x y l => exact hs.storesPf rfl (henc rfl).enc h
  | clear l => exact hs.storesPf rfl (henc rfl).enc h
  | pfwr n a v => exact hs.storesPf rfl (henc rfl).enc h
  | swapreq => exact hs.congr hc hd (hp rfl) (hf rfl) (execSwapreq_enc h)
  | tick => exact hs.congr hc hd (hp rfl) (hf rfl) (execTick_enc h)
  | _ => exact hs.congr hc hd (hp rfl) (hf rfl) (henc rfl).enc

/-- Settles O29: ENCSTEP strikes what it writes, PF is written only outside a run, a new run has struck nothing, and a reset
ends the run. -/
theorem everyStepKeepsTheRunInvariant : Obligations.EveryStepKeepsTheRunInvariant := fun _ _ =>
  step_keeps (P := State.RunInv)
    (hblock := fun _ _ => .of_block)
    (hexec := fun _ _ _ _ hs h => hs.exec h)
    (hreset := fun _ _ _ => .of_idle rfl)
    (hfault := fun _ _ hs => hs.congr rfl rfl rfl rfl rfl)

end Machine

end Sys2Proof
end

section
open Sys2Proof Sys2Proof.Machine

namespace Sys2Proof.Machine

/-! ### The driver's operations when they are enabled -/

section
variable {s : State}

theorem exec_start_running (hfree : s.enc.busy = false) (hrun : s.scn.run = true) :
    exec .start s = .next s.accept :=
  (if_neg (Bool.eq_false_iff.mp hfree)).trans (if_pos hrun)

theorem exec_start_idle (hfree : s.enc.busy = false) (hrun : s.scn.run = false) :
    exec .start s = .next { (s.accept.arm 0) with
      cyc := { s.cyc with index := 0 }
      scn := { s.scn with run := true } } :=
  (if_neg (Bool.eq_false_iff.mp hfree)).trans (if_neg (Bool.eq_false_iff.mp hrun))

theorem exec_xfer {g : Half} (hen : s.xferEnabled g) (hin : (s.ch g).rdOff + 4 ≤ s.cfg.planeBytes) :
    exec (.xfer g) s = .next ((s.setLn g { s.ln g with
      rx := (s.ln g).rx ++ [readLE (s.sfByte (s.ch g).plane) (s.ch g).rdOff 4] }).setCh g (s.ch g).advance) :=
  (if_pos hen).trans (if_pos hin)

theorem exec_refdone (hen : s.refDoneEnabled) :
    exec .refdone s = .next { s with
      out := s.out ++ [{ index := s.cyc.index, rx0 := s.ln0.rx, rx1 := s.ln1.rx }]
      scn := { s.scn with irqPending := true } } :=
  if_pos hen

theorem exec_tick (hen : s.tickEnabled) :
    exec .tick s = .next { (s.arm (s.cyc.index + 1)) with
      cyc := { index := s.cyc.index + 1, swapPending := swapAfterTick (s.cyc.index + 1) s.cyc.swapPending }
      scn := { s.scn with irqPending := false } } :=
  if_pos hen

end

/-! ### The sequence of sub-frames -/

/-- The sequence is that of the index, the scan flags and the records. -/
theorem State.SequenceInv.congr {s t : State} (hs : s.SequenceInv) (hi : t.cyc.index = s.cyc.index)
    (hn : t.scn = s.scn) (ho : t.out = s.out) : t.SequenceInv := by
  constructor <;> rw [ho]
  · exact hs.indices
  · rw [hi, hn]; exact hs.inFlight
  · rw [hi, hn]; exact hs.latched
  · rw [hn]; exact hs.stopped

theorem State.SequenceInv.of_block {s t : State} (h : t.block = s.block) (hs : s.SequenceInv) : t.SequenceInv := by
  obtain ⟨r, p, n, u, v, rfl⟩ := State.eq_of_block h
  exact hs.congr rfl rfl rfl

/-- The first sub-frame has the index 0 and no record before it (R165). -/
theorem State.SequenceInv.start {s t : State} (hs : s.SequenceInv) (h : execStart s = .next t) : t.SequenceInv := by
  rcases execStart_next h with ⟨-, rfl⟩ | ⟨-, -, rfl⟩ | ⟨-, hrun, rfl⟩
  · exact hs
  · exact hs.congr rfl rfl rfl
  · obtain ⟨hirq, hout⟩ := hs.stopped hrun
    exact
      { indices := hs.indices
        inFlight := fun _ _ => by simp [hout]
        latched := fun _ h => by simp [hirq] at h
        stopped := nofun }

theorem State.SequenceInv.xfer {s t : State} {g : Half} (hs : s.SequenceInv) (h : execXfer g s = .next t) :
    t.SequenceInv := by
  rcases execXfer_next h with ⟨-, rfl⟩ | ⟨-, -, rfl⟩
  · exact hs
  · exact hs.congr (by simp) (by simp) (by simp)

/-- The record of the sub-frame in flight is the next of the sequence, and the index stays that of the last record
(R167). -/
theorem State.SequenceInv.refdone {s t : State} (hs : s.SequenceInv) (h : execRefdone s = .next t) :
    t.SequenceInv := by
  rcases execRefdone_next h with ⟨-, rfl⟩ | ⟨⟨hrun, hirq, -, -⟩, rfl⟩
  · exact hs
  · have hindex := hs.inFlight hrun hirq
    exact
      { indices := by simp [hs.indices, hindex, List.range_succ]
        inFlight := nofun
        latched := fun _ _ => by simp [hindex]
        stopped := by simp [hrun] }

/-- The slot after that of the last record is the slot of the next one (R168). -/
theorem State.SequenceInv.tick {s t : State} (hs : s.SequenceInv) (h : execTick s = .next t) : t.SequenceInv := by
  rcases execTick_next h with ⟨-, rfl⟩ | ⟨⟨hrun, hirq⟩, rfl⟩
  · exact hs
  · obtain ⟨hpos, hindex⟩ := hs.latched hrun hirq
    have hnext : s.cyc.index + 1 = BitVec.ofNat 2 s.out.length :=
      calc s.cyc.index + 1
        _ = BitVec.ofNat 2 (s.out.length - 1) + BitVec.ofNat 2 1 := congrArg (· + 1) hindex
        _ = BitVec.ofNat 2 s.out.length := by rw [BitVec.ofNat_add_ofNat, Nat.sub_add_cancel hpos]
    exact
      { indices := hs.indices
        inFlight := fun _ _ => hnext
        latched := nofun
        stopped := by simp [hrun] }

theorem State.SequenceInv.exec {i : Instr} {s t : State} (hs : s.SequenceInv) (h : exec i s = .next t) :
    t.SequenceInv := by
  have hdriver := (exec_control_frame h).2
  cases i with
  | start => exact hs.start h
  | xfer g => exact hs.xfer h
  | refdone => exact hs.refdone h
  | tick => exact hs.tick h
  | _ => exact hs.congr (hdriver rfl).index (hdriver rfl).scn (hdriver rfl).out

/-- Settles O38: REFDONE appends the record of the sub-frame in flight, TICK moves on from the last record, START begins the
sequence, no other operation touches it, and a reset empties it. -/
theorem everyStepKeepsTheSubFrameSequence : Obligations.EveryStepKeepsTheSubFrameSequence := fun _ _ =>
  step_keeps (P := State.SequenceInv)
    (hblock := fun _ _ => .of_block)
    (hexec := fun _ _ _ _ hs h => hs.exec h)
    (hreset := fun s _ _ => .of_block s.powerOn_block (State.resetWith_sequenceInv _ _))
    (hfault := fun _ _ hs => hs.congr rfl rfl rfl)

/-! ### One application of each driver operation -/

/-- A channel that is on and has words left goes off with its last word (R166). -/
theorem Channel.advance_of_enabled {c : Channel} (hen : c.en = true) (hrem : 0 < c.remaining) :
    c.advance =
      { en := decide (c.remaining ≠ 1), plane := c.plane, rdOff := c.rdOff + 4, remaining := c.remaining - 1 } := by
  have hlast : c.remaining - 1 = 0 ↔ c.remaining = 1 := by omega
  simp only [Channel.advance, hen, hlast]
  by_cases h : c.remaining = 1 <;> simp [h]

/-- Settles O33: the word is the little-endian read at the channel's pointer, and the channel and lane of the one half are all
that is set. -/
theorem xferMovesOneWord : Obligations.XferMovesOneWord := by
  intro s g hrun hen hrem hlane hin
  refine ⟨_, readLE (s.sfByte (s.ch g).plane) (s.ch g).rdOff 4, exec_xfer ⟨hrun, hen, hrem, hlane⟩ hin, ?_, ?_, ?_, ?_,
    ?_, ?_, ?_⟩
  · intro i hi
    rw [readLE_byte _ _ _ _ hi (le_refl 4), if_pos hi]
  · rw [State.ch_setCh_same, Channel.advance_of_enabled hen hrem]
  · rw [State.ln_setCh, State.ln_setLn_same]
  · rintro rfl; rfl
  · rintro rfl; rfl
  · exact congrFun (State.pfByte_congr (by simp) (by simp))
  · exact fun k => congrFun (congrFun (State.sfByte_congr (by simp) (by simp)) k)

/-- Only the wrap, from slot 3, clears the flag (R168 step 5). -/
theorem swapAfterTick_succ (i : Slot) (p : Bool) : swapAfterTick (i + 1) p = if i.toNat = 3 then false else p := by
  revert i p
  decide

/-- Settles O35: the meaning of an enabled TICK, with the wrap read off the old slot. -/
theorem tickServicesTheInterrupt : Obligations.TickServicesTheInterrupt := by
  intro s hrun hirq
  refine ⟨s.cyc.index + 1, BitVec.toNat_add .., ?_⟩
  simp only [exec_tick ⟨hrun, hirq⟩, swapAfterTick_succ, hrun]
  rfl

/-- Settles O32: the two branches of START with the port free; half 0 of a plane begins at 0, half 1 at HALF_BYTES. -/
theorem startArmsPlaneZero : Obligations.StartArmsPlaneZero :=
  fun _ hfree => ⟨exec_start_running hfree, exec_start_idle hfree⟩

/-- Settles O34: the meaning of an enabled REFDONE. -/
theorem refdoneRecordsTheSubFrame : Obligations.RefdoneRecordsTheSubFrame := by
  intro s hrun hirq h0 h1
  simp only [exec_refdone ⟨hrun, hirq, h0, h1⟩, hrun]

/-! ### What the lanes received -/

/-- The first n words of a half of a plane are those at its first n word offsets (R161). -/
theorem State.planeWords_take (s : State) (k : Slot) (h : Half) {n : Nat} (hn : n ≤ s.cfg.halfWords) :
    (s.planeWords k h).take n = (List.range n).map fun j => readLE (s.sfByte k) (s.cfg.halfStart h + 4 * j) 4 := by
  rw [State.planeWords, ← List.map_take, List.take_range, Nat.min_eq_left hn]

theorem State.planeWords_take_succ (s : State) (k : Slot) (h : Half) {n : Nat} (hn : n < s.cfg.halfWords) :
    (s.planeWords k h).take (n + 1) =
      (s.planeWords k h).take n ++ [readLE (s.sfByte k) (s.cfg.halfStart h + 4 * n) 4] := by
  rw [s.planeWords_take k h hn, s.planeWords_take k h hn.le, List.range_succ, List.map_append]
  rfl

/-- Just armed, the lanes hold nothing and the channels have moved nothing (R163). -/
theorem State.RxFromStore.of_armed {t : State} (i : Slot) (hch : ∀ h, t.ch h = Channel.armed t.cfg i h)
    (hln : ∀ h, t.ln h = Lane.armed t.cfg) : t.RxFromStore := by
  intro _ h
  simp [hch, hln]

theorem State.RxFromStore.start {s t : State} (hs : s.RxFromStore) (h : execStart s = .next t) : t.RxFromStore := by
  rcases execStart_next h with ⟨-, rfl⟩ | ⟨-, -, rfl⟩ | ⟨-, -, rfl⟩
  · exact hs
  · exact hs.of_block s.accept_block
  · exact .of_armed 0 (State.ch_arm s.accept 0) (State.ln_arm s.accept 0)

theorem State.RxFromStore.tick {s t : State} (hs : s.RxFromStore) (h : execTick s = .next t) : t.RxFromStore := by
  rcases execTick_next h with ⟨-, rfl⟩ | ⟨-, rfl⟩
  · exact hs
  · exact .of_armed _ (State.ch_arm s (s.cyc.index + 1)) (State.ln_arm s (s.cyc.index + 1))

theorem State.RxFromStore.refdone {s t : State} (hs : s.RxFromStore) (h : execRefdone s = .next t) :
    t.RxFromStore := by
  rcases execRefdone_next h with ⟨-, rfl⟩ | ⟨-, rfl⟩
  · exact hs
  · exact hs.congr rfl rfl rfl rfl (fun _ => rfl) (fun _ => rfl)

/-- The channel's pointer stands at the first word its lane lacks, and XFER moves that word (R166). -/
theorem State.RxFromStore.xfer {s t : State} {g : Half} (hinv : s.ControlInv) (hs : s.RxFromStore)
    (h : execXfer g s = .next t) : t.RxFromStore := by
  rcases execXfer_next h with ⟨-, rfl⟩ | ⟨⟨hrun, -, hrem, -⟩, -, rfl⟩
  · exact hs
  · intro _ f
    rw [State.planeWords_congr (s := s) (by simp) (by simp) (by simp), State.ln_setCh, State.ln_setLn, State.ch_setCh,
      State.ch_setLn, State.setCh_cfg, State.setLn_cfg]
    by_cases hfg : f = g
    · subst hfg
      have hhalf := hinv.running hrun f
      have hbound := hhalf.bound
      have hmoved : s.cfg.halfWords - ((s.ch f).remaining - 1) = s.cfg.halfWords - (s.ch f).remaining + 1 := by omega
      rw [if_pos rfl, if_pos rfl]
      simp only [Channel.advance]
      rw [hmoved, s.planeWords_take_succ _ _ (by omega), ← hs hrun f, ← hhalf.pointer]
    · rw [if_neg hfg, if_neg hfg]
      exact hs hrun f

/-- Every operation but ENCSTEP, the one that stores in SF, keeps the lanes in step with the store (R175). -/
theorem State.RxFromStore.exec {i : Instr} {s t : State} (hinv : s.ControlInv) (hs : s.RxFromStore)
    (hi : ∀ k a, i ≠ .encstep k a) (h : exec i s = .next t) : t.RxFromStore := by
  obtain ⟨hc, hd, -, -, -, -, hf, -, -⟩ := exec_frame h
  have hdriver := (exec_control_frame h).2
  cases i with
  | start => exact hs.start h
  | xfer g => exact hs.xfer hinv h
  | refdone => exact hs.refdone h
  | tick => exact hs.tick h
  | encstep k a => exact absurd rfl (hi k a)
  | _ =>
    obtain ⟨-, hn, hch, hln, -⟩ := hdriver rfl
    exact hs.congr hc (hf rfl) hd (congrArg Scan.run hn) (congrFun hch) (congrFun hln)

/-- ENCSTEP is the step of the encoder's turn alone. -/
theorem turn_of_agentStep_encstep {u : Turn} {k : Slot} {a : Nat} (h : u.agentStep = some (.encstep k a)) :
    u = .encStep k a := by
  cases u <;> cases h
  rfl

/-- Settles O41: TICK and START arm; every later operation but ENCSTEP keeps the lanes in step, ENCSTEP is none of the HOST's,
and a reset stops the scanout. -/
theorem lanesHoldWhatTheStoreHolds : Obligations.LanesHoldWhatTheStoreHolds := by
  refine ⟨fun s t hrun hirq h => ?_, fun s t hfree hidle h => ?_, fun s t hinv hs hturn h => ?_⟩
  · cases (exec_tick ⟨hrun, hirq⟩).symm.trans h
    exact .of_armed _ (State.ch_arm s (s.cyc.index + 1)) (State.ln_arm s (s.cyc.index + 1))
  · cases (exec_start_idle hfree hidle).symm.trans h
    exact .of_armed 0 (State.ch_arm s.accept 0) (State.ln_arm s.accept 0)
  · obtain ⟨-, hb | ⟨i, u, hop, hu, hb⟩ | ⟨-, rfl⟩ | ⟨-, -, -, rfl⟩⟩ := step_block h
    · exact hs.of_block hb
    · have hi : ∀ k a, i ≠ .encstep k a := by
        rintro k a rfl
        rcases hop with ⟨-, hhost, -⟩ | hagent
        · cases hhost
        · exact hturn k a (turn_of_agentStep_encstep hagent)
      exact .of_block hb ((hs.of_block s.endTurn_block).exec (hinv.of_block s.endTurn_block) hi hu)
    · exact nofun
    · exact hs.congr rfl rfl rfl rfl (fun _ => rfl) (fun _ => rfl)

/-- A channel that has finished has given its lane its whole half of the current plane (R175). -/
theorem State.RxFromStore.whole {s : State} (hinv : s.ControlInv) (hs : s.RxFromStore) (hrun : s.scn.run = true)
    {h : Half} (hrem : (s.ch h).remaining = 0) : (s.ln h).rx = s.planeWords s.cyc.index h := by
  rw [hs hrun h, hrem, (hinv.running hrun h).plane, s.planeWords_take _ _ (Nat.sub_le ..)]
  rfl

/-- Settles O42: REFDONE records what the two lanes hold, each its whole half of the current plane. -/
theorem recordShowsTheWholePlane : Obligations.RecordShowsTheWholePlane := by
  intro s hinv hs hrun hirq h0 h1
  refine ⟨_, exec_refdone ⟨hrun, hirq, h0, h1⟩, ?_⟩
  have hrx0 : s.ln0.rx = s.planeWords s.cyc.index .half0 := hs.whole hinv hrun (h := .half0) h0
  have hrx1 : s.ln1.rx = s.planeWords s.cyc.index .half1 := hs.whole hinv hrun (h := .half1) h1
  simp [hrx0, hrx1, State.planeWords, Config.halfStart]

/-! ### What moves the slot -/

/-- Of all operations TICK alone moves the slot of a running scanout, and none stops it (R160, R30). -/
theorem exec_moves_slot {i : Instr} {s t : State} (hrun : s.scn.run = true) (h : exec i s = .next t) :
    t.scn.run = true ∧
      (t.cyc.index = s.cyc.index ∨ (i = .tick ∧ s.scn.irqPending = true ∧ t.cyc.index = s.cyc.index + 1)) := by
  have hdriver := (exec_control_frame h).2
  cases i with
  | start =>
    rcases execStart_next h with ⟨-, rfl⟩ | ⟨-, -, rfl⟩ | ⟨-, hidle, -⟩
    · exact ⟨hrun, .inl rfl⟩
    · exact ⟨hrun, .inl rfl⟩
    · simp [hrun] at hidle
  | xfer g => rcases execXfer_next h with ⟨-, rfl⟩ | ⟨-, -, rfl⟩ <;> simp [hrun]
  | refdone => rcases execRefdone_next h with ⟨-, rfl⟩ | ⟨-, rfl⟩ <;> exact ⟨hrun, .inl rfl⟩
  | tick =>
    rcases execTick_next h with ⟨-, rfl⟩ | ⟨⟨-, hirq⟩, rfl⟩
    · exact ⟨hrun, .inl rfl⟩
    · exact ⟨hrun, .inr ⟨rfl, hirq, rfl⟩⟩
  | _ => exact ⟨by rw [(hdriver rfl).scn, hrun], .inl (hdriver rfl).index⟩

/-- Settles O46: a step other than a reset is one operation or leaves the slot, TICK is the one operation that moves it, and
TICK is none of the HOST's. -/
theorem onlyATickMovesTheSlot : Obligations.OnlyATickMovesTheSlot := by
  intro s t hrun hreset h
  obtain ⟨-, hb | ⟨i, u, hop, hu, hb⟩ | ⟨hr, -⟩ | ⟨-, -, -, rfl⟩⟩ := step_block h
  · obtain ⟨-, -, -, hcyc, hscn, -⟩ := State.fields_of_block hb
    rw [hcyc, hscn]
    exact ⟨hrun, .inl rfl⟩
  · obtain ⟨-, -, -, hcyc, hscn, -⟩ := State.fields_of_block hb
    rw [hcyc, hscn]
    refine (exec_moves_slot (s := s.endTurn) hrun hu).imp_right (Or.imp_right ?_)
    rintro ⟨rfl, hirq, hindex⟩
    have hturn : s.turn = .tick := by
      rcases hop with ⟨-, hhost, -⟩ | hagent
      · cases hhost
      · exact turn_of_agentStep_tick hagent
    exact ⟨hturn, hirq, by rw [hindex]; exact BitVec.toNat_add ..⟩
  · exact absurd hr hreset
  · exact ⟨hrun, .inl rfl⟩

end Sys2Proof.Machine
end

section
open Sys2Proof Sys2Proof.Machine

namespace Sys2Proof.Machine

/-! ### Runs, step by step -/

/-- A run of k + 1 steps is a first step and a run of k from there. -/
theorem run_succ_next {M : Host.Core} {k : Nat} {s t : M.State} (h : M.run (k + 1) s = .next t) :
    ∃ u, M.step s = .next u ∧ M.run k u = .next t := by
  unfold Host.Core.run at h
  split at h
  · rename_i u hu
    exact ⟨u, hu, h⟩
  · cases h
  · cases h

theorem State.ticksIn_succ {k : Nat} {s u : State} (h : step s = .next u) :
    State.ticksIn (k + 1) s = (if s.takesTick then 1 else 0) + State.ticksIn k u := by
  rw [State.ticksIn, h]

theorem State.clearsIn_succ {k : Nat} {s u : State} (h : step s = .next u) :
    State.clearsIn (k + 1) s =
      (if s.takesTick ∧ s.cyc.index = 3 ∧ s.cyc.swapPending = true then 1 else 0) + State.clearsIn k u := by
  rw [State.clearsIn, h]

/-- Induction along a run: where each step from a state that meets P keeps I, what holds of no steps and is carried over one
more step in front holds of the whole run. -/
theorem run_along {P I : State → Prop} {Q : Nat → State → State → Prop}
    (hkeep : ∀ {s u}, P s → I s → step s = .next u → I u)
    (hnil : ∀ {s}, I s → Q 0 s s)
    (hcons : ∀ {k s u t}, P s → I s → step s = .next u → Q k u t → Q (k + 1) s t)
    {k : Nat} {s t : State} (hs : I s) (halong : State.Along P k s)
    (h : Host.Core.run Sys2Proof.core k s = .next t) : Q k s t := by
  induction k generalizing s with
  | zero => cases h; exact hnil hs
  | succ k ih =>
    obtain ⟨u, hu, hrun⟩ := run_succ_next h
    obtain ⟨hP, hrest⟩ := halong
    exact hcons hP hs hu (ih (hkeep hP hs hu) (hrest u hu) hrun)

/-- One step by whose turn it is: the HOST's, the one operation of an agent, or a reset. -/
theorem step_turn {s t : State} (h : step s = .next t) :
    s.cfg.Ok ∧
    (s.turn = .host ∧ runHost s.endTurn = .next t ∨
      (∃ i, s.turn.agentStep = some i ∧ exec i s.endTurn = .next t) ∨
      s.turn = .reset ∧ t = s.endTurn.powerOn) := by
  obtain ⟨hok, -, h⟩ := step_next h
  refine ⟨hok, ?_⟩
  cases hturn : s.turn <;> rw [hturn] at h
  case host => exact .inl ⟨rfl, h⟩
  case reset => cases h; exact .inr (.inr ⟨rfl, rfl⟩)
  all_goals exact .inr (.inl ⟨_, rfl, h⟩)

/-! ### The operations of the swap -/

section
variable {s : State}

theorem exec_swapreq_clear (hfree : s.enc.busy = false) (hp : s.cyc.swapPending = false) :
    exec .swapreq s = .next { s.accept with cyc := { s.cyc with swapPending := true } } :=
  (if_neg (Bool.eq_false_iff.mp hfree)).trans (if_neg (Bool.eq_false_iff.mp hp))

theorem exec_swapreq_pending (hfree : s.enc.busy = false) (hp : s.cyc.swapPending = true) :
    exec .swapreq s = .fault .swapOverlap :=
  (if_neg (Bool.eq_false_iff.mp hfree)).trans (if_pos hp)

end

theorem exec_rdstatus (s : State) : exec .rdstatus s = .next (s.answer s.status) := rfl

/-- Settles O47: SWAPREQ tests the flag alone, once the port is free. -/
theorem swapreqSetsTheFlag : Obligations.SwapreqSetsTheFlag :=
  fun _ hfree => ⟨exec_swapreq_clear hfree, exec_swapreq_pending hfree⟩

/-- Settles O48: the answer is STATUS, each of whose bits is known. -/
theorem rdstatusSamplesTheFields : Obligations.RdstatusSamplesTheFields := by
  intro s
  refine ⟨_, exec_rdstatus s, rfl, extract_eq fun i hi => ?_, s.status_getLsbD 2, s.status_getLsbD 3, s.status_getLsbD 4,
    s.status_getLsbD 5, fun i hi => ?_⟩
  · rw [State.answer_rdata, Nat.zero_add, s.status_getLsbD, if_pos hi]
  · rw [State.answer_rdata, s.status_getLsbD, if_neg (by omega), if_neg (by omega), if_neg (by omega), if_neg (by omega),
      if_neg (by omega)]

/-! ### WAITSWAP -/

/-- The HOST's turn with WAITSWAP as its item is one iteration of the wait (R193). -/
theorem runHost_waitSwap {s : State} (hitem : s.item = .waitSwap) : runHost s = runWaitSwap s := by
  simp only [runHost, hitem]

theorem runWaitSwap_busy {s : State} (hb : s.enc.busy = true) : runWaitSwap s = .next s :=
  if_pos hb

theorem runWaitSwap_refused {s : State} (hok : s.cfg.Ok) (hfree : s.enc.busy = false) (hr : s.cfg.regBase % 4 ≠ 0) :
    runWaitSwap s = .refused .badAccess := by
  have hbad : decodeAccess s.cfg (statusAccess s.cfg) = .bad := (decodeAccess_status hok).trans (if_neg hr)
  simp [runWaitSwap, hfree, runAccess_bad hbad]

/-- An iteration that reads STATUS leaves the item while the flag is set (R193). -/
theorem runWaitSwap_polls {s : State} (hok : s.cfg.Ok) (hfree : s.enc.busy = false) (hr : s.cfg.regBase % 4 = 0) :
    runWaitSwap s = .next (if s.cyc.swapPending then { s with rdata := s.status } else s.answer s.status) := by
  have hop : decodeAccess s.cfg (statusAccess s.cfg) = .op .rdstatus := (decodeAccess_status hok).trans (if_pos hr)
  have hpoll : runAccess (statusAccess s.cfg) s = .next (s.answer s.status) := runAccess_op hop nofun
  have hflag : s.status.getLsbD 2 = s.cyc.swapPending := s.status_getLsbD 2
  simp only [runWaitSwap, hfree, hpoll, State.answer_rdata, hflag]
  rfl

/-- Settles O49: the step is one iteration of the wait, which tests `ENC.busy`, then REG_BASE, then the flag. -/
theorem waitswapPollsTheFlag : Obligations.WaitswapPollsTheFlag := by
  intro s hok hf ht hitem
  have hstep : step s = runWaitSwap s.endTurn :=
    calc step s = runTurn s.turn s.endTurn := step_eq hok (.inl hf)
      _ = runHost s.endTurn := by rw [ht]; rfl
      _ = runWaitSwap s.endTurn := runHost_waitSwap (s.endTurn_item.trans hitem)
  rw [hstep]
  refine ⟨runWaitSwap_busy (s := s.endTurn), runWaitSwap_refused (s := s.endTurn) hok,
    fun hfree hr => ⟨_, runWaitSwap_polls (s := s.endTurn) hok hfree hr, ?_⟩⟩
  cases hp : s.cyc.swapPending
  · rw [if_neg (by simp [hp])]
    exact ⟨rfl, rfl, rfl, nofun, fun _ => ⟨rfl, rfl⟩⟩
  · rw [if_pos (by simp [hp])]
    exact ⟨rfl, rfl, rfl, fun _ => ⟨rfl, rfl⟩, nofun⟩

/-! ### Nothing of the producer's in a TICK -/

/-- Settles O45: an enabled TICK takes its fields from the configuration and the slot. -/
theorem producerCannotInfluenceATick : Obligations.ProducerCannotInfluenceATick := by
  intro s u hcfg hscn hindex hrun hirq
  have hu : u.tickEnabled := by
    unfold State.tickEnabled
    rw [hscn]
    exact ⟨hrun, hirq⟩
  refine ⟨_, _, exec_tick ⟨hrun, hirq⟩, exec_tick hu, ?_⟩
  simp [State.arm, hcfg, hscn, hindex]

/-! ### The swap request along a run -/

/-- A step that takes a TICK moves to the next slot and clears the flag at the wrap (R168). -/
theorem step_takesTick {s t : State} (ht : s.takesTick) (h : step s = .next t) :
    t.cyc = { index := s.cyc.index + 1,
              swapPending := if s.cyc.index.toNat = 3 then false else s.cyc.swapPending } := by
  obtain ⟨hturn, hen⟩ := ht
  obtain ⟨hok, hlive, -⟩ := step_next h
  have hstep : step s = exec .tick s.endTurn := step_agentStep hok hlive (by rw [hturn]; rfl)
  rw [hstep, exec_tick (s := s.endTurn) hen] at h
  cases h
  exact congrArg (Cycle.mk _) (swapAfterTick_succ ..)

/-- With the flag set and scanout running, a step that takes no TICK leaves the slot and the flag (R160, R71 item 4). -/
theorem step_no_tick {s t : State} (hrun : s.scn.run = true) (hp : s.cyc.swapPending = true) (hreset : s.turn ≠ .reset)
    (ht : ¬s.takesTick) (h : step s = .next t) : t.cyc = s.cyc := by
  have hindex : t.cyc.index = s.cyc.index := by
    obtain ⟨-, hsame | ⟨hturn, hirq, -⟩⟩ := onlyATickMovesTheSlot s t hrun hreset h
    · exact hsame
    · exact absurd ⟨hturn, hrun, hirq⟩ ht
  have hflag : t.cyc.swapPending = true := by
    by_contra hclear
    obtain ⟨hturn, hen, hirq, -⟩ := onlyAWrapClearsTheFlag s t hreset h hp (by simpa using hclear)
    exact ht ⟨hturn, hen, hirq⟩
  cases hs : s.cyc
  cases hu : t.cyc
  simp_all

theorem succ_toNat_of_ne_three {i : Slot} (h : i.toNat ≠ 3) : (i + 1).toNat = i.toNat + 1 := by
  revert i
  decide

theorem succ_eq_zero_of_three {i : Slot} (h : i.toNat = 3) : i + 1 = 0 := by
  revert i
  decide

/-- Over the k steps from s to t the flag stays set, and each TICK moves the slot by one, as long as they take fewer TICKs
than lead to the wrap (R195). -/
def PendingUpToWrap (k : Nat) (s t : State) : Prop :=
  s.cyc.swapPending = true → State.ticksIn k s < 4 - s.cyc.index.toNat →
    t.cyc.swapPending = true ∧ t.cyc.index.toNat = s.cyc.index.toNat + State.ticksIn k s

/-- A TICK before the wrap moves the slot and leaves the flag; any other step leaves both. -/
theorem PendingUpToWrap.cons {k : Nat} {s u t : State} (hrun : s.scn.run = true) (hreset : s.turn ≠ .reset)
    (hu : step s = .next u) (ih : PendingUpToWrap k u t) : PendingUpToWrap (k + 1) s t := by
  intro hp hticks
  rw [State.ticksIn_succ hu] at hticks ⊢
  by_cases ht : s.takesTick
  · rw [if_pos ht] at hticks ⊢
    have hlast : s.cyc.index.toNat ≠ 3 := by omega
    rw [PendingUpToWrap, step_takesTick ht hu, if_neg hlast, succ_toNat_of_ne_three hlast] at ih
    obtain ⟨hpt, hindex⟩ := ih hp (by omega)
    exact ⟨hpt, by omega⟩
  · rw [if_neg ht, Nat.zero_add] at hticks ⊢
    rw [PendingUpToWrap, step_no_tick hrun hp hreset ht hu] at ih
    exact ih hp hticks

theorem pendingUpToWrap_of_run {k : Nat} {s t : State} (hrun : s.scn.run = true)
    (halong : State.Along (fun u => u.turn ≠ .reset) k s) (h : Host.Core.run Sys2Proof.core k s = .next t) :
    PendingUpToWrap k s t :=
  run_along (I := fun s => s.scn.run = true)
    (fun hreset hrun hu => (onlyATickMovesTheSlot _ _ hrun hreset hu).1)
    (fun _ hp _ => ⟨hp, rfl⟩)
    (fun hreset hrun hu ih => ih.cons hrun hreset hu)
    hrun halong h

/-- Settles O52: after 3 - i TICKs the flag is set in slot 3, whose TICK is the wrap. -/
theorem swapCompletesWithinOneCycle : Obligations.SwapCompletesWithinOneCycle := by
  intro k s t hrun hp halong h
  have hheld := pendingUpToWrap_of_run hrun halong h hp
  refine ⟨hheld, fun hticks ht u hu => ?_⟩
  obtain ⟨-, hindex⟩ := hheld (by omega)
  have hlast : t.cyc.index.toNat = 3 := by omega
  rw [step_takesTick ht hu, if_pos hlast, succ_eq_zero_of_three hlast]
  exact ⟨rfl, rfl⟩

end Sys2Proof.Machine
end

section
open Sys2Proof Sys2Proof.Machine

namespace Sys2Proof.Machine

/-! ### The clean window -/

/-- A record shows its plane as the store holds it, whole (R175). -/
def State.Shows (s : State) (r : Displayed) : Prop :=
  r.rx0 = s.planeWords r.index .half0 ∧ r.rx1 = s.planeWords r.index .half1

/-- From s to t the planes do not change, and each record appended shows one of them (R198). -/
structure State.CleanTo (s t : State) : Prop where
  cfg : t.cfg = s.cfg
  sf : t.sf = s.sf
  draw : t.draw = s.draw
  out : ∃ recs, t.out = s.out ++ recs ∧ ∀ r ∈ recs, s.Shows r

theorem State.CleanTo.of_same_out {s t : State} (hc : t.cfg = s.cfg) (hf : t.sf = s.sf) (hd : t.draw = s.draw)
    (ho : t.out = s.out) : s.CleanTo t :=
  ⟨hc, hf, hd, [], by simp [ho], nofun⟩

theorem State.CleanTo.of_block {s t : State} (h : t.block = s.block) : s.CleanTo t := by
  obtain ⟨r, p, n, u, v, rfl⟩ := State.eq_of_block h
  exact .of_same_out rfl rfl rfl rfl

theorem State.CleanTo.trans {s u t : State} (h : s.CleanTo u) (g : u.CleanTo t) : s.CleanTo t := by
  obtain ⟨before, hout, hbefore⟩ := h.out
  obtain ⟨after, hout', hafter⟩ := g.out
  refine ⟨g.cfg.trans h.cfg, g.sf.trans h.sf, g.draw.trans h.draw, before ++ after, ?_, fun r hr => ?_⟩
  · rw [hout', hout, List.append_assoc]
  · rcases List.mem_append.mp hr with hr | hr
    · exact hbefore r hr
    · have hshows := hafter r hr
      rwa [State.Shows, State.planeWords_congr h.cfg h.sf h.draw] at hshows

/-- Outside a run no operation stores in SF, and REFDONE appends what the lanes hold (R27, R167, R175). -/
theorem State.CleanTo.exec {i : Instr} {s t : State} (hinv : s.ControlInv) (hrx : s.RxFromStore)
    (hfree : s.enc.busy = false) (h : exec i s = .next t) : s.CleanTo t := by
  obtain ⟨hc, hd, -, -, -, -, hf, ho, -⟩ := exec_frame h
  cases i with
  | encstep k a =>
    rcases execEncstep_next h with ⟨-, rfl⟩ | ⟨⟨hbusy, -⟩, -, -⟩
    · exact .of_same_out rfl rfl rfl rfl
    · simp [hfree] at hbusy
  | refdone =>
    rcases execRefdone_next h with ⟨-, rfl⟩ | ⟨⟨hrun, -, h0, h1⟩, rfl⟩
    · exact .of_same_out rfl rfl rfl rfl
    · have hshows : s.Shows { index := s.cyc.index, rx0 := s.ln0.rx, rx1 := s.ln1.rx } :=
        ⟨hrx.whole hinv hrun (h := .half0) h0, hrx.whole hinv hrun (h := .half1) h1⟩
      exact ⟨rfl, rfl, rfl, [_], rfl, List.forall_mem_singleton.mpr hshows⟩
  | _ => exact .of_same_out hc (hf rfl) hd (ho nofun)

theorem State.CleanTo.step {s t : State} (hinv : s.ControlInv) (hrx : s.RxFromStore) (hfree : s.enc.busy = false)
    (hreset : s.turn ≠ .reset) (h : step s = .next t) : s.CleanTo t := by
  obtain ⟨-, hb | ⟨i, u, -, hu, hb⟩ | ⟨hr, -⟩ | ⟨-, -, -, rfl⟩⟩ := step_block h
  · exact .of_block hb
  · have hexec : s.endTurn.CleanTo u :=
      .exec (hinv.of_block s.endTurn_block) (hrx.of_block s.endTurn_block) hfree hu
    exact ((State.CleanTo.of_block s.endTurn_block).trans hexec).trans (.of_block hb)
  · exact absurd hr hreset
  · exact .of_same_out rfl rfl rfl rfl

/-- With no run in progress the encoder's turn writes nothing, so every step keeps the lanes in step with the store. -/
theorem State.RxFromStore.step_of_free {s t : State} (hinv : s.ControlInv) (hrx : s.RxFromStore)
    (hfree : s.enc.busy = false) (h : step s = .next t) : t.RxFromStore := by
  by_cases hturn : ∃ k a, s.turn = .encStep k a
  · obtain ⟨k, a, hka⟩ := hturn
    obtain ⟨hok, hlive, -⟩ := step_next h
    have hstep : step s = .next s.endTurn :=
      (step_agentStep hok hlive (by rw [hka]; rfl)).trans
        ((disabledStepsChangeNothing s.endTurn k a .half0).1 fun ⟨hbusy, _⟩ => by simp [hfree] at hbusy)
    cases hstep.symm.trans h
    exact hrx.of_block s.endTurn_block
  · exact lanesHoldWhatTheStoreHolds.2.2 s t hinv hrx (fun k a hka => hturn ⟨k, a, hka⟩) h

/-- Settles O55: along the run the lanes stay in step with the store and each step is clean. -/
theorem cleanWindowShowsOneGeneration : Obligations.CleanWindowShowsOneGeneration := by
  intro k s t hinv hrx halong h
  have hclean : s.CleanTo t :=
    run_along (I := fun s => s.ControlInv ∧ s.RxFromStore) (Q := fun _ s t => s.CleanTo t)
      (fun ⟨hfree, _⟩ ⟨hinv, hrx⟩ hu =>
        ⟨everyStepKeepsTheControlInvariant _ _ hinv hu, hrx.step_of_free hinv hfree hu⟩)
      (fun _ => .of_block rfl)
      (fun ⟨hfree, hreset⟩ ⟨hinv, hrx⟩ hu => (State.CleanTo.step hinv hrx hfree hreset hu).trans)
      ⟨hinv, hrx⟩ halong h
  exact ⟨hclean.sf, hclean.out⟩

end Sys2Proof.Machine
end

section
open Sys2Proof Sys2Proof.Machine

namespace Sys2Proof.Machine

/-! ### The wait after a swap request -/

/-- An agent's step leaves the HOST's items and PF (R225). -/
theorem exec_agent_frame {i : Instr} {s t : State} (hi : i.isHostOp = false) (h : exec i s = .next t) :
    t.prog = s.prog ∧ t.pf = s.pf := by
  cases i with
  | encstep k a => rcases execEncstep_next h with ⟨-, rfl⟩ | ⟨-, -, rfl⟩ <;> exact ⟨rfl, rfl⟩
  | encdone => rcases execEncdone_next h with ⟨-, rfl⟩ | ⟨-, rfl⟩ <;> exact ⟨rfl, rfl⟩
  | xfer g => rcases execXfer_next h with ⟨-, rfl⟩ | ⟨-, -, rfl⟩ <;> simp
  | refdone => rcases execRefdone_next h with ⟨-, rfl⟩ | ⟨-, rfl⟩ <;> exact ⟨rfl, rfl⟩
  | tick => rcases execTick_next h with ⟨-, rfl⟩ | ⟨-, rfl⟩ <;> exact ⟨rfl, rfl⟩
  | _ => cases hi

theorem State.Generation.congr {s t : State} (hs : s.Generation) (hc : t.cfg = s.cfg) (hd : t.draw = s.draw)
    (hp : t.pf = s.pf) (hf : t.sf = s.sf) : t.Generation := by
  unfold State.Generation
  rw [hc, State.sfByte_congr hf hd, State.encByte_congr hc hp hd]
  exact hs

/-- What holds from the request of a swap to the end of the wait (R197): the run in progress, if any, is that of an UPDSWAP,
and outside it SF is the generation of PF. -/
structure State.SwapCall (s : State) : Prop where
  control : s.ControlInv
  run : s.RunInv
  swapping : s.enc.busy = true → s.enc.thenSwap = true
  generation : s.enc.busy = false → s.Generation

/-- How many clears of the flag the swap call still waits for: one, until the wrap that clears it (R168 step 5). -/
def State.clearsDue (s : State) : Nat := if s.enc.busy = true ∨ s.cyc.swapPending = true then 1 else 0

theorem State.clearsDue_congr {s t : State} (hb : t.enc.busy = s.enc.busy)
    (hp : t.cyc.swapPending = s.cyc.swapPending) : t.clearsDue = s.clearsDue := by
  rw [State.clearsDue, hb, hp, State.clearsDue]

theorem State.clearsDue_eq_zero {s : State} :
    s.clearsDue = 0 ↔ s.enc.busy = false ∧ s.cyc.swapPending = false := by
  simp [State.clearsDue]

theorem State.SwapCall.of_block {s t : State} (h : t.block = s.block) (hs : s.SwapCall) : t.SwapCall := by
  obtain ⟨hcontrol, hrun, hswapping, hgeneration⟩ := hs
  refine ⟨hcontrol.of_block h, hrun.of_block h, ?_, ?_⟩ <;> obtain ⟨r, p, n, u, v, rfl⟩ := State.eq_of_block h
  · exact hswapping
  · exact fun hfree => (hgeneration hfree).congr rfl rfl rfl rfl

/-- The run of an UPDSWAP ends with the generation of PF in SF, and no other step of an agent's stores in SF outside a run
(R148). -/
theorem State.SwapCall.exec {i : Instr} {s t : State} (hs : s.SwapCall) (hok : s.cfg.Ok) (hi : i.isHostOp = false)
    (h : exec i s = .next t) : t.SwapCall := by
  obtain ⟨hc, hd, -, -, -, -, hf, -, -⟩ := exec_frame h
  obtain ⟨-, hp⟩ := exec_agent_frame hi h
  have kept (hsf : storesSf i = false) (he : t.enc = s.enc) : t.SwapCall :=
    ⟨hs.control.exec hok h, hs.run.exec h, he ▸ hs.swapping,
      fun hfree => (hs.generation (he ▸ hfree)).congr hc hd hp (hf hsf)⟩
  have henc := (exec_control_frame h).1
  cases i with
  | encstep k a =>
    rcases execEncstep_next h with ⟨-, rfl⟩ | ⟨⟨hbusy, -⟩, -, rfl⟩
    · exact hs
    · exact ⟨hs.control.exec hok h, hs.run.exec h, fun _ => hs.swapping hbusy, fun hfree => by simp [hbusy] at hfree⟩
  | encdone =>
    rcases execEncdone_next h with ⟨-, rfl⟩ | ⟨⟨hbusy, htodo⟩, rfl⟩
    · exact hs
    · obtain ⟨u, hu, hgen, -⟩ := runEndsWithTheGeneration s hs.run hbusy htodo
      cases hu.symm.trans h
      exact ⟨hs.control.exec hok h, hs.run.exec h, nofun, fun _ => hgen⟩
  | xfer g => exact kept rfl (henc rfl).enc
  | refdone => exact kept rfl (henc rfl).enc
  | tick => exact kept rfl (execTick_enc h)
  | _ => cases hi

/-- A TICK that is no wrap with the flag set leaves the flag (R168 step 5). -/
theorem swapAfterTick_of_no_wrap {i : Slot} {p : Bool} (h : ¬(i = 3 ∧ p = true)) : swapAfterTick (i + 1) p = p := by
  revert i p
  decide

/-- The one operation that settles the clear still due is the TICK of the wrap; ENCDONE hands it from the run to the flag
(R147, R168). -/
theorem State.SwapCall.clearsDue_exec {i : Instr} {s t : State} (hs : s.SwapCall) (hi : i.isHostOp = false)
    (h : Machine.exec i s = .next t) :
    s.clearsDue =
      (if (i = .tick ∧ s.tickEnabled) ∧ s.cyc.index = 3 ∧ s.cyc.swapPending = true then 1 else 0) + t.clearsDue := by
  have henc := (exec_control_frame h).1
  cases i with
  | encstep k a =>
    rw [if_neg nofun, Nat.zero_add]
    rcases execEncstep_next h with ⟨-, rfl⟩ | ⟨-, -, rfl⟩ <;> rfl
  | encdone =>
    rw [if_neg nofun, Nat.zero_add]
    rcases execEncdone_next h with ⟨-, rfl⟩ | ⟨⟨hbusy, -⟩, rfl⟩
    · rfl
    · simp [State.clearsDue, hbusy, hs.swapping hbusy]
  | xfer g =>
    rw [if_neg nofun, Nat.zero_add]
    exact (State.clearsDue_congr (congrArg Encoder.busy (henc rfl).enc) (henc rfl).swapPending).symm
  | refdone =>
    rw [if_neg nofun, Nat.zero_add]
    exact (State.clearsDue_congr (congrArg Encoder.busy (henc rfl).enc) (henc rfl).swapPending).symm
  | tick =>
    rcases execTick_next h with ⟨hoff, rfl⟩ | ⟨hen, rfl⟩
    · rw [if_neg fun hc => hoff hc.1.2, Nat.zero_add]
    · by_cases hwrap : s.cyc.index = 3 ∧ s.cyc.swapPending = true
      · obtain ⟨hlast, hp⟩ := hwrap
        have hfree : s.enc.busy = false := by simpa [hp] using hs.control.noOverlap
        simp [State.clearsDue, hen, hlast, hp, hfree, swapAfterTick]
      · rw [if_neg fun hc => hwrap hc.2, Nat.zero_add]
        refine (State.clearsDue_congr ?_ ?_).symm
        · rfl
        · exact swapAfterTick_of_no_wrap hwrap
  | _ => cases hi

/-- A step of the wait: the call goes on or has ended, PF is left, and a clear still due is settled by the TICK of the wrap
alone. -/
theorem State.SwapCall.step {s t : State} {rest : List HostItem} (hs : s.SwapCall)
    (hprog : s.prog = .waitSwap :: rest) (hreset : s.turn ≠ .reset) (h : step s = .next t) :
    t.SwapCall ∧ t.pf = s.pf ∧
    s.clearsDue =
      (if s.takesTick ∧ s.cyc.index = 3 ∧ s.cyc.swapPending = true then 1 else 0) + t.clearsDue ∧
    (t.prog = s.prog ∨ t.clearsDue = 0) := by
  obtain ⟨hok, ⟨hturn, hhost⟩ | ⟨i, hturn, hexec⟩ | ⟨hr, -⟩⟩ := step_turn h
  · have hitem : s.endTurn.item = .waitSwap := by simp [State.item, hprog]
    rw [runHost_waitSwap hitem] at hhost
    rw [if_neg fun ⟨⟨ht, _⟩, _⟩ => by simp [hturn] at ht, Nat.zero_add]
    rcases runWaitSwap_next (s := s.endTurn) hok hhost with ⟨-, rfl⟩ | ⟨-, -, rfl⟩ | ⟨hfree, hp, rfl⟩
    · exact ⟨.of_block (s := s) rfl hs, rfl, rfl, .inl rfl⟩
    · exact ⟨.of_block (s := s) rfl hs, rfl, rfl, .inl rfl⟩
    · exact ⟨.of_block (s := s) rfl hs, rfl, rfl, .inr (State.clearsDue_eq_zero.mpr ⟨hfree, hp⟩)⟩
  · have hi := agentStep_not_hostOp hturn
    obtain ⟨hprog', hpf⟩ := exec_agent_frame hi hexec
    have hcall : s.endTurn.SwapCall := hs.of_block s.endTurn_block
    have htick : s.takesTick ↔ i = .tick ∧ s.tickEnabled := by
      refine and_congr_left' ⟨fun ht => ?_, ?_⟩
      · rw [ht] at hturn
        exact (Option.some.inj hturn).symm
      · rintro rfl
        exact turn_of_agentStep_tick hturn
    refine ⟨hcall.exec hok hi hexec, hpf, ?_, .inl hprog'⟩
    simp only [htick]
    exact hcall.clearsDue_exec hi hexec
  · exact absurd hr hreset

/-- The k steps of the wait from s to t: the call is kept and PF left, and the clears taken are those no longer due; the wait
goes on, or ends with none due (R197). -/
structure WaitedTo (rest : List HostItem) (k : Nat) (s t : State) : Prop where
  call : t.SwapCall
  pf : t.pf = s.pf
  clears : s.clearsDue = State.clearsIn k s + t.clearsDue
  waiting : t.prog = .waitSwap :: rest ∨ t.clearsDue = 0

theorem State.SwapCall.waitedTo {k : Nat} {s t : State} {rest : List HostItem} (hs : s.SwapCall)
    (hprog : s.prog = .waitSwap :: rest)
    (halong : State.Along (fun u => u.turn ≠ .reset ∧ u.prog = .waitSwap :: rest) k s)
    (h : Host.Core.run Sys2Proof.core k s = .next t) : WaitedTo rest k s t := by
  refine run_along (I := fun s => s.SwapCall ∧ (s.prog = .waitSwap :: rest ∨ s.clearsDue = 0)) ?_ ?_ ?_
    ⟨hs, .inl hprog⟩ halong h
  · rintro s u ⟨hreset, hprog⟩ ⟨hs, -⟩ hu
    obtain ⟨hcall, -, -, hwaiting⟩ := hs.step hprog hreset hu
    exact ⟨hcall, hwaiting.imp_left fun hsame => hsame.trans hprog⟩
  · rintro s ⟨hs, hwaiting⟩
    exact ⟨hs, rfl, (Nat.zero_add _).symm, hwaiting⟩
  · rintro k s u t ⟨hreset, hprog⟩ ⟨hs, -⟩ hu ih
    obtain ⟨-, hpf, hclears, -⟩ := hs.step hprog hreset hu
    exact { ih with
      pf := ih.pf.trans hpf
      clears := by rw [State.clearsIn_succ hu, hclears, ih.clears, Nat.add_assoc] }

/-- Settles O54: both forms begin with a swap call and one clear due, and the wait ends only where none is. -/
theorem swapCallReturns : Obligations.SwapCallReturns := by
  intro k s t rest hinv hprog hstart halong h hend
  obtain ⟨hcall, hdue⟩ : s.SwapCall ∧ s.clearsDue = 1 := by
    rcases hstart with ⟨hbusy, hswap, hrun⟩ | ⟨hfree, hp, hgen⟩
    · exact ⟨⟨hinv, hrun, fun _ => hswap, by simp [hbusy]⟩, by simp [State.clearsDue, hbusy]⟩
    · exact ⟨⟨hinv, .of_idle hfree, by simp [hfree], fun _ => hgen⟩, by simp [State.clearsDue, hp]⟩
  have hwait := hcall.waitedTo hprog halong h
  have hzero : t.clearsDue = 0 := hwait.waiting.resolve_left (by simp [hend])
  have hone := hwait.clears
  obtain ⟨hfree, hp⟩ := State.clearsDue_eq_zero.mp hzero
  exact ⟨hp, hfree, hwait.call.generation hfree, hwait.pf, by omega⟩

end Sys2Proof.Machine
end

section
open Sys2Proof Sys2Proof.Machine

namespace Sys2Proof.Machine

/-! ### A HOST that waits after each swap request -/

/-- A swap is requested, by the flag or by the run that will set it (R194). -/
abbrev State.swapRequested (s : State) : Prop :=
  s.cyc.swapPending = true ∨ (s.enc.busy = true ∧ s.enc.thenSwap = true)

/-- Only SWAPREQ and UPDSWAP begin the request of a swap (R147, R190, R191). -/
theorem exec_requests_swap {i : Instr} {s t : State} (h : exec i s = .next t) (ht : t.swapRequested) :
    s.swapRequested ∨ i = .swapreq ∨ i = .updswap := by
  have henc := (exec_control_frame h).1
  cases i with
  | swapreq => exact .inr (.inl rfl)
  | updswap => exact .inr (.inr rfl)
  | encode =>
    rcases State.startRun_next h with ⟨-, rfl⟩ | ⟨-, -, rfl⟩
    · exact .inl ht
    · exact .inl (.inl (by simpa [State.swapRequested] using ht))
  | encstep k a => rcases execEncstep_next h with ⟨-, rfl⟩ | ⟨-, -, rfl⟩ <;> exact .inl ht
  | encdone =>
    rcases execEncdone_next h with ⟨-, rfl⟩ | ⟨⟨hbusy, -⟩, rfl⟩
    · exact .inl ht
    · have hflag : s.enc.thenSwap = true ∨ s.cyc.swapPending = true := by simpa [State.swapRequested] using ht
      exact .inl (hflag.symm.imp_right fun hswap => ⟨hbusy, hswap⟩)
  | tick =>
    rcases execTick_next h with ⟨-, rfl⟩ | ⟨-, rfl⟩
    · exact .inl ht
    · exact .inl (ht.imp_left pending_of_swapAfterTick)
  | _ =>
    obtain ⟨he, hp⟩ := henc rfl
    rw [State.swapRequested, he, hp] at ht
    exact .inl ht

/-- An operation of the HOST's that the port does not hold completes its access (R95). -/
theorem exec_hostOp_prog {i : Instr} {s t : State} (hi : i.isHostOp = true)
    (hfree : heldAtPort i = true → s.enc.busy = false) (h : exec i s = .next t) : t.prog = s.prog.tail := by
  have held {P : Prop} (hh : heldAtPort i = true) (hb : s.enc.busy = true) : P := by
    simp [hfree hh] at hb
  cases i with
  | setpix x y l =>
    rcases execSetpix_next h with ⟨hb, -⟩ | ⟨-, -, rfl⟩ | ⟨-, -, rfl⟩
    · exact held rfl hb
    · rfl
    · rfl
  | getpix x y =>
    rcases execGetpix_next h with ⟨hb, -⟩ | ⟨-, v, rfl⟩
    · exact held rfl hb
    · rfl
  | clear l =>
    rcases execClear_next h with ⟨hb, -⟩ | ⟨-, rfl⟩
    · exact held rfl hb
    · rfl
  | encode =>
    rcases State.startRun_next h with ⟨hb, -⟩ | ⟨-, -, rfl⟩
    · exact held rfl hb
    · rfl
  | swapreq =>
    rcases execSwapreq_next h with ⟨hb, -⟩ | ⟨-, -, rfl⟩
    · exact held rfl hb
    · rfl
  | updswap =>
    rcases State.startRun_next h with ⟨hb, -⟩ | ⟨-, -, rfl⟩
    · exact held rfl hb
    · rfl
  | start =>
    rcases execStart_next h with ⟨hb, -⟩ | ⟨-, -, rfl⟩ | ⟨-, -, rfl⟩
    · exact held rfl hb
    · rfl
    · rfl
  | reserved0 p => cases h
  | reserved8F p => cases h
  | rdstatus => cases h; rfl
  | rdpixdata => cases h; rfl
  | pfrd n a =>
    rcases execPfrd_next h with ⟨hb, -⟩ | ⟨-, -, rfl⟩
    · exact held rfl hb
    · rfl
  | pfwr n a v =>
    rcases execPfwr_next h with ⟨hb, -⟩ | ⟨-, -, rfl⟩
    · exact held rfl hb
    · rfl
  | _ => cases hi

theorem swapsWaited_of_cons {c : Config} {item : HostItem} {rest : List HostItem}
    (h : swapsWaited c (item :: rest)) : swapsWaited c rest := by
  cases item with
  | access b => exact h.2
  | waitSwap => exact h

/-- A step that leaves the HOST's items and requests no swap keeps the discipline. -/
theorem State.SwapsSerialized.of_same_prog {s t : State} (hs : s.SwapsSerialized) (hc : t.cfg = s.cfg)
    (hp : t.prog = s.prog) (hreq : t.swapRequested → s.swapRequested) : t.SwapsSerialized where
  future := by rw [hc, hp]; exact hs.future
  waiting ht := by rw [hp]; exact hs.waiting (hreq ht)

/-- A step that completes the first item keeps it, if a swap then requested finds WAITSWAP next. -/
theorem State.SwapsSerialized.of_tail {s t : State} {item : HostItem} {rest : List HostItem} (hs : s.SwapsSerialized)
    (hprog : s.prog = item :: rest) (hc : t.cfg = s.cfg) (hp : t.prog = s.prog.tail)
    (hreq : t.swapRequested → rest.head? = some .waitSwap) : t.SwapsSerialized := by
  have hrest : t.prog = rest := by rw [hp, hprog]; rfl
  have hfuture := hs.future
  rw [hprog] at hfuture
  constructor
  · rw [hc, hrest]; exact swapsWaited_of_cons hfuture
  · rw [hrest]; exact hreq

/-- A HOST whose next item is a bus access waits for no swap. -/
theorem State.SwapsSerialized.not_requested {s : State} {b : BusAccess} {rest : List HostItem} (hs : s.SwapsSerialized)
    (hprog : s.prog = .access b :: rest) : ¬s.swapRequested := by
  intro hreq
  have hhead := hs.waiting hreq
  simp [hprog] at hhead

theorem State.SwapsSerialized.access {s t : State} {b : BusAccess} {rest : List HostItem} (hs : s.SwapsSerialized)
    (hprog : s.prog = .access b :: rest) (h : runAccess b s = .next t) : t.SwapsSerialized ∧ t.fault = s.fault := by
  have hnone := hs.not_requested hprog
  rcases runAccess_next h with ⟨rfl, -⟩ | ⟨i, hi, hfree, hexec | ⟨r, hfault, -⟩⟩ | rfl | rfl
  · exact ⟨hs, rfl⟩
  · obtain ⟨hc, -, hf, -⟩ := exec_frame hexec
    have hp := exec_hostOp_prog (decodeAccess_isHostOp hi) hfree hexec
    refine ⟨hs.of_tail hprog hc hp fun ht => ?_, hf⟩
    have hwaited := hs.future
    rw [hprog] at hwaited
    obtain hreq | rfl | rfl := exec_requests_swap hexec ht
    · exact absurd hreq hnone
    · exact hwaited.1 (.inl hi)
    · exact hwaited.1 (.inr hi)
  · obtain ⟨-, -, -, hp⟩ := exec_hostOp_fault (decodeAccess_isHostOp hi) hfault
    exact absurd (.inl hp) hnone
  · exact ⟨hs.of_tail hprog rfl rfl fun ht => absurd ht hnone, rfl⟩
  · exact ⟨hs.of_tail hprog rfl rfl fun ht => absurd ht hnone, rfl⟩

theorem State.SwapsSerialized.waitSwap {s t : State} {rest : List HostItem} (hs : s.SwapsSerialized) (hok : s.cfg.Ok)
    (hprog : s.prog = .waitSwap :: rest) (h : runWaitSwap s = .next t) : t.SwapsSerialized ∧ t.fault = s.fault := by
  rcases runWaitSwap_next hok h with ⟨-, rfl⟩ | ⟨-, -, rfl⟩ | ⟨hfree, hp, rfl⟩
  · exact ⟨hs, rfl⟩
  · exact ⟨hs.of_same_prog rfl rfl id, rfl⟩
  · exact ⟨hs.of_tail hprog rfl rfl fun ht => by simp [State.swapRequested, hfree, hp] at ht, rfl⟩

theorem State.SwapsSerialized.host {s t : State} (hs : s.SwapsSerialized) (hok : s.cfg.Ok) (hne : s.prog ≠ [])
    (h : runHost s = .next t) : t.SwapsSerialized ∧ t.fault = s.fault := by
  obtain ⟨item, rest, hprog⟩ := List.exists_cons_of_ne_nil hne
  have hitem : s.item = item := by simp [State.item, hprog]
  cases item with
  | access b => exact hs.access hprog (by rwa [runHost_access hitem] at h)
  | waitSwap => exact hs.waitSwap hok hprog (by rwa [runHost_waitSwap hitem] at h)

/-- An agent never requests a swap that is not requested already (R147). -/
theorem State.SwapsSerialized.agent {i : Instr} {s t : State} (hs : s.SwapsSerialized) (hi : i.isHostOp = false)
    (h : exec i s = .next t) : t.SwapsSerialized ∧ t.fault = s.fault := by
  obtain ⟨hc, -, hf, -⟩ := exec_frame h
  refine ⟨hs.of_same_prog hc (exec_agent_frame hi h).1 fun ht => ?_, hf⟩
  obtain hreq | rfl | rfl := exec_requests_swap h ht
  · exact hreq
  · cases hi
  · cases hi

/-! ### What the HOST's turn cannot answer -/

/-- A fault of the HOST's is recorded, not answered (R194; log 10). -/
theorem runAccess_ne_fault (b : BusAccess) (s : State) (r : Fault) : runAccess b s ≠ .fault r := by
  unfold runAccess recording
  split
  · split
    · nofun
    · split <;> nofun
  · nofun
  · nofun
  · nofun

theorem runHost_ne_fault (s : State) (r : Fault) : runHost s ≠ .fault r := by
  unfold runHost runWaitSwap
  split
  · exact runAccess_ne_fault _ s r
  · split
    · nofun
    · split
      · nofun
      · exact absurd ‹_› (runAccess_ne_fault _ s _)
      · nofun

/-- With no fault recorded no step answers a fault: the HOST's are recorded, and the agents meet none (R65, R172). -/
theorem step_ne_fault {s : State} (hs : s.ControlInv) (hf : s.fault = none) (r : Fault) : step s ≠ .fault r := by
  by_cases hok : s.cfg.Ok
  · by_cases hturn : s.turn = .host
    · rw [step_eq hok (.inl hf), hturn]
      exact runHost_ne_fault s.endTurn r
    · obtain ⟨t, ht⟩ := agentsNeverStop s hok hs (.inl hf) hturn
      rw [ht]
      nofun
  · rw [step_of_not_ok hok]
    nofun

/-- Settles O53: a HOST about to request a swap has none requested, one that has requested it waits, and no agent requests
one. -/
theorem waitingHostNeverOverlaps : Obligations.WaitingHostNeverOverlaps := by
  intro s hinv hf hs hne
  refine ⟨step_ne_fault hinv hf, fun t h => ?_⟩
  have hend : s.endTurn.SwapsSerialized := ⟨hs.future, hs.waiting⟩
  rw [← hf]
  obtain ⟨hok, ⟨-, hhost⟩ | ⟨i, hturn, hexec⟩ | ⟨-, rfl⟩⟩ := step_turn h
  · exact hend.host hok hne hhost
  · exact hend.agent (agentStep_not_hostOp hturn) hexec
  · exact ⟨hend.of_same_prog rfl rfl (by simp [State.swapRequested]), hf.symm⟩

end Sys2Proof.Machine
end

section
open Sys2Proof Sys2Proof.Machine

namespace Sys2Proof.Machine

/-! ### What a step does to the recorded fault -/

/-- A step leaves the recorded fault, clears it by a reset (R240), or records an overlapping swap request (R213; log 10). -/
theorem step_fault {s t : State} (h : step s = .next t) :
    t.fault = s.fault ∨
    (s.turn = .reset ∧ t.fault = none) ∨
    (t.fault = some .swapOverlap ∧ s.turn = .host ∧ s.enc.busy = false ∧ s.cyc.swapPending = true) := by
  obtain ⟨-, hb | ⟨i, u, -, hu, hb⟩ | ⟨hturn, rfl⟩ | ⟨hturn, hfree, hp, rfl⟩⟩ := step_block h
  · obtain ⟨_, _, _, _, _, rfl⟩ := State.eq_of_block hb
    exact .inl rfl
  · obtain ⟨_, _, _, _, _, rfl⟩ := State.eq_of_block hb
    obtain ⟨-, -, hf, -⟩ := exec_frame hu
    exact .inl hf
  · exact .inr (.inl ⟨hturn, rfl⟩)
  · exact .inr (.inr ⟨rfl, hturn, hfree, hp⟩)

/-- Settles O44: no step answers a fault, and of the three things a step does to the recorded fault one records a fault where
none was. -/
theorem theOnlyFaultIsSwapOverlap : Obligations.TheOnlyFaultIsSwapOverlap := by
  intro s hinv hnone
  refine ⟨step_ne_fault hinv hnone, fun t r h hr => ?_⟩
  obtain hsame | ⟨-, hcleared⟩ | ⟨hrecorded, hwhen⟩ := step_fault h
  · simp [hsame, hnone] at hr
  · simp [hcleared] at hr
  · exact ⟨Option.some.inj (hr.symm.trans hrecorded), hwhen⟩

/-! ### An overlapping swap request -/

theorem State.startRun_pending {s : State} (hfree : s.enc.busy = false) (hp : s.cyc.swapPending = true)
    (thenSwap : Bool) : s.startRun thenSwap = .fault .swapOverlap :=
  (if_neg (Bool.eq_false_iff.mp hfree)).trans (if_pos hp)

/-- With the port free and the flag set each of the three requests is the fault (R145, R190, R191, R213). -/
theorem exec_overlappingSwap {s : State} {i : Instr} (hi : i = .encode ∨ i = .swapreq ∨ i = .updswap)
    (hfree : s.enc.busy = false) (hp : s.cyc.swapPending = true) : exec i s = .fault .swapOverlap := by
  obtain rfl | rfl | rfl := hi
  · exact State.startRun_pending hfree hp false
  · exact exec_swapreq_pending hfree hp
  · exact State.startRun_pending hfree hp true

/-- Settles O26: the port does not hold the request while it is free, the step records the fault that the request meets, and a
recorded fault answers every turn but a reset. -/
theorem overlappingSwapFaults : Obligations.OverlappingSwapFaults := by
  refine ⟨fun s hfree hp => ?_, fun s b i hok hf hturn hitem hsel hi hfree hp => ?_, fun s r => step_recorded⟩
  · have hexec {i : Instr} (hi) : exec i s = .fault .swapOverlap := exec_overlappingSwap hi hfree hp
    exact ⟨hexec (.inl rfl), hexec (.inr (.inl rfl)), hexec (.inr (.inr rfl))⟩
  · have hnotHeld : ¬(heldAtPort i = true ∧ s.enc.busy = true) := by simp [hfree]
    obtain ⟨-, -, hrecorded⟩ := (stepRunsTheSelectedOperation s i hok hf).1 b hturn hitem hsel hnotHeld
    exact hrecorded .swapOverlap (exec_overlappingSwap (s := s.endTurn) hi hfree hp)

/-! ### Who writes what -/

/-- An operation that is none of the HOST's is taken on its agent's turn (R13, R100). -/
theorem agentStep_of_not_hostOp {s : State} {i : Instr} {held : Prop}
    (h : s.turn = .host ∧ i.isHostOp = true ∧ held ∨ s.turn.agentStep = some i) (hi : i.isHostOp = false) :
    s.turn.agentStep = some i := by
  refine h.resolve_left ?_
  rintro ⟨-, hhost, -⟩
  simp [hi] at hhost

/-- REFDONE is the step of its own turn alone. -/
theorem turn_of_agentStep_refdone {u : Turn} (h : u.agentStep = some .refdone) : u = .refDone := by
  cases u <;> cases h
  rfl

/-- GETPIX, which latches a level, is the HOST's (R122), so an agent's step leaves the latched level (R225). -/
theorem exec_agent_pixdata {i : Instr} {s t : State} (hi : i.isHostOp = false) (h : exec i s = .next t) :
    t.pixdata = s.pixdata := by
  obtain ⟨-, -, -, -, -, -, -, -, hpix⟩ := exec_frame h
  refine hpix ?_
  rintro x y rfl
  cases hi

/-- An operation leaves the display history or, being REFDONE, adds one record at its end (R36, R167). -/
theorem exec_out_append {i : Instr} {s t : State} (h : exec i s = .next t) :
    ∃ recs, t.out = s.out ++ recs ∧ recs.length ≤ 1 := by
  by_cases hi : i = .refdone
  · subst hi
    rcases execRefdone_next h with ⟨-, rfl⟩ | ⟨-, rfl⟩
    · exact ⟨[], (List.append_nil _).symm, Nat.zero_le 1⟩
    · exact ⟨[_], rfl, le_refl 1⟩
  · obtain ⟨-, -, -, -, -, -, -, hout, -⟩ := exec_frame h
    exact ⟨[], (hout hi).trans (List.append_nil _).symm, Nat.zero_le 1⟩

/-- Settles O56: a step other than a reset is one operation or leaves these fields, and the operations that store in SF and
OUT, ENCSTEP and REFDONE, are each the step of one turn. -/
theorem agentsWriteOnlyTheirOwn : Obligations.AgentsWriteOnlyTheirOwn := by
  intro s t hreset h
  obtain ⟨-, hb | ⟨i, u, hop, hu, hb⟩ | ⟨hr, -⟩ | ⟨-, -, -, rfl⟩⟩ := step_block h
  · obtain ⟨_, _, _, _, _, rfl⟩ := State.eq_of_block hb
    exact ⟨rfl, rfl, fun _ => ⟨rfl, rfl⟩, fun _ => rfl, fun _ => rfl, [], (List.append_nil _).symm, Nat.zero_le 1⟩
  · obtain ⟨_, _, _, _, _, rfl⟩ := State.eq_of_block hb
    obtain ⟨hcfg, hdraw, -, -, -, -, hsf, hout, -⟩ := exec_frame hu
    have hrecs := exec_out_append hu
    refine ⟨hcfg, hdraw, fun hturn => ?_, fun hturn => hsf ?_, fun hturn => hout ?_, hrecs⟩
    · have hagent : i.isHostOp = false := agentStep_not_hostOp (hop.resolve_left fun hhost => hturn hhost.1)
      obtain ⟨-, hpf⟩ := exec_agent_frame hagent hu
      have hpix := exec_agent_pixdata hagent hu
      exact ⟨hpf, hpix⟩
    · refine storesSf_eq_false ?_
      rintro k a rfl
      exact hturn k a (turn_of_agentStep_encstep (agentStep_of_not_hostOp hop rfl))
    · rintro rfl
      exact hturn (turn_of_agentStep_refdone (agentStep_of_not_hostOp hop rfl))
  · exact absurd hr hreset
  · exact ⟨rfl, rfl, fun _ => ⟨rfl, rfl⟩, fun _ => rfl, fun _ => rfl, [], (List.append_nil _).symm, Nat.zero_le 1⟩

end Sys2Proof.Machine
end

section
open Sys2Proof Sys2Proof.Machine

namespace Sys2Proof.Machine

/-! ### Reset -/

/-- The reset turn is the power-on of the block, whether or not a fault is recorded (R240; logs 9 and 10). -/
theorem step_reset {s : State} (hok : s.cfg.Ok) (ht : s.turn = .reset) : step s = .next s.endTurn.powerOn := by
  rw [step_eq hok (.inr ht), ht]
  rfl

/-- Settles O59: the step is the power-on of the block, which keeps the HOST's side. -/
theorem resetStepResetsTheBlock : Obligations.ResetStepResetsTheBlock := fun s hok ht =>
  ⟨s.endTurn.powerOn, step_reset hok ht, s.endTurn.powerOn_block, rfl, rfl, rfl, rfl⟩

/-! ### An idle engine -/

/-- With scanout stopped and no run in progress no agent's step is enabled: the encoder's need a run, the driver's and the
channels' need scanout (R30, R242). -/
theorem exec_agent_idle {i : Instr} {s t : State} (hi : i.isHostOp = false) (hstop : s.scn.run = false)
    (hfree : s.enc.busy = false) (h : exec i s = .next t) : t = s := by
  have hrun : ¬s.scn.run = true := Bool.eq_false_iff.mp hstop
  have hbusy : ¬s.enc.busy = true := Bool.eq_false_iff.mp hfree
  cases i with
  | encstep k a => exact (execEncstep_next h).elim And.right fun ⟨hen, _⟩ => absurd hen.1 hbusy
  | encdone => exact (execEncdone_next h).elim And.right fun ⟨hen, _⟩ => absurd hen.1 hbusy
  | xfer g => exact (execXfer_next h).elim And.right fun ⟨hen, _⟩ => absurd hen.1 hrun
  | refdone => exact (execRefdone_next h).elim And.right fun ⟨hen, _⟩ => absurd hen.1 hrun
  | tick => exact (execTick_next h).elim And.right fun ⟨hen, _⟩ => absurd hen.1 hrun
  | _ => cases hi

/-- Settles O60: the agent's turn takes its one operation, which is not enabled, so the step ends the turn and no more. -/
theorem idleUntilTheHostActs : Obligations.IdleUntilTheHostActs := by
  intro s t i hstop hfree hagent h
  obtain ⟨hok, hlive, -⟩ := step_next h
  rw [step_agentStep hok hlive hagent] at h
  rw [exec_agent_idle (s := s.endTurn) (agentStep_not_hostOp hagent) hstop hfree h, State.endTurn_block]

end Sys2Proof.Machine
end

section
open Sys2Proof Sys2Proof.Machine

namespace Sys2Proof.Machine

/-! ### What polling may rely on -/

/-- Operation i is the one whose turn it is: the HOST's next access selects it, or it is the step of the agent (R70, R99). -/
def State.selects (s : State) (i : Instr) : Prop :=
  (s.turn = .host ∧ ∃ b, s.item = .access b ∧ decodeAccess s.cfg b = .op i) ∨ s.turn.agentStep = some i

/-- An operation of the HOST's is selected by its access alone. -/
theorem State.selects.access {s : State} {i : Instr} (h : s.selects i) (hi : i.isHostOp = true) :
    s.turn = .host ∧ ∃ b, s.item = .access b ∧ decodeAccess s.cfg b = .op i :=
  h.resolve_right fun hagent => by simp [agentStep_not_hostOp hagent] at hi

/-- ENCDONE is the step of its own turn alone. -/
theorem turn_of_agentStep_encdone {u : Turn} (h : u.agentStep = some .encdone) : u = .encDone := by
  cases u <;> cases h
  rfl

/-- ENCDONE is selected on its own turn alone: no access of the HOST's selects it (R99, R100). -/
theorem State.selects.turn_of_encdone {s : State} (h : s.selects .encdone) : s.turn = .encDone := by
  obtain ⟨-, b, -, hop⟩ | hagent := h
  · cases decodeAccess_isHostOp hop
  · exact turn_of_agentStep_encdone hagent

/-- A step other than a reset leaves CYC and the encoder, or takes the operation that the turn selects. -/
theorem step_selects {s t : State} (hreset : s.turn ≠ .reset) (h : step s = .next t) :
    (t.cyc = s.cyc ∧ t.enc = s.enc) ∨ ∃ i, s.selects i ∧ exec i s.endTurn = .next t := by
  obtain ⟨hok, ⟨hturn, hhost⟩ | ⟨i, hagent, hexec⟩ | ⟨hr, -⟩⟩ := step_turn h
  · rcases runHost_block (s := s.endTurn) hok hhost with hb | ⟨i, b, hitem, hop, -, hexec | ⟨r, -, rfl⟩⟩
    · obtain ⟨_, _, _, _, _, rfl⟩ := State.eq_of_block hb
      exact .inl ⟨rfl, rfl⟩
    · exact .inr ⟨i, .inl ⟨hturn, b, hitem, hop⟩, hexec⟩
    · exact .inl ⟨rfl, rfl⟩
  · exact .inr ⟨i, .inr hagent, hexec⟩
  · exact absurd hr hreset

/-- Only SWAPREQ and the ENCDONE of an UPDSWAP run set the flag (R147, R190). -/
theorem exec_sets_flag {i : Instr} {s t : State} (h : exec i s = .next t) (hs : s.cyc.swapPending = false)
    (ht : t.cyc.swapPending = true) :
    i = .swapreq ∨ (i = .encdone ∧ s.enc.busy = true ∧ s.enc.thenSwap = true) := by
  have changed : t.cyc.swapPending ≠ s.cyc.swapPending := by simp [hs, ht]
  cases i with
  | swapreq => exact .inl rfl
  | encdone =>
    rcases execEncdone_next h with ⟨-, rfl⟩ | ⟨⟨hbusy, -⟩, rfl⟩
    · exact absurd rfl changed
    · exact .inr ⟨rfl, hbusy, by simpa [hs] using ht⟩
  | encode => rcases State.startRun_next h with ⟨-, rfl⟩ | ⟨-, -, rfl⟩ <;> exact absurd rfl changed
  | updswap => rcases State.startRun_next h with ⟨-, rfl⟩ | ⟨-, -, rfl⟩ <;> exact absurd rfl changed
  | encstep k a => rcases execEncstep_next h with ⟨-, rfl⟩ | ⟨-, -, rfl⟩ <;> exact absurd rfl changed
  | tick =>
    rcases execTick_next h with ⟨-, rfl⟩ | ⟨-, rfl⟩
    · exact absurd rfl changed
    · exact absurd ((pending_of_swapAfterTick ht).trans ht.symm).symm changed
  | _ => exact absurd ((exec_control_frame h).1 rfl).swapPending changed

/-- Only ENCODE and UPDSWAP start a run (R145, R191). -/
theorem exec_starts_run {i : Instr} {s t : State} (h : exec i s = .next t) (hs : s.enc.busy = false)
    (ht : t.enc.busy = true) : i = .encode ∨ i = .updswap := by
  have changed : t.enc ≠ s.enc := fun he => by simp [he, hs] at ht
  cases i with
  | encode => exact .inl rfl
  | updswap => exact .inr rfl
  | swapreq => exact absurd (execSwapreq_enc h) changed
  | tick => exact absurd (execTick_enc h) changed
  | encstep k a =>
    rcases execEncstep_next h with ⟨-, rfl⟩ | ⟨⟨hbusy, -⟩, -⟩
    · exact absurd rfl changed
    · simp [hs] at hbusy
  | encdone =>
    rcases execEncdone_next h with ⟨-, rfl⟩ | ⟨-, rfl⟩
    · exact absurd rfl changed
    · cases ht
  | _ => exact absurd ((exec_control_frame h).1 rfl).enc changed

/-- Settles O51: only the operation that the turn selects can set the flag or the busy bit, and the operations that do set them
are selected on the turns named; nothing but a reset stops scanout (O46). -/
theorem pollingGuarantees : Obligations.PollingGuarantees := by
  intro s t hreset h
  refine ⟨fun hs ht => ?_, fun hrun => (onlyATickMovesTheSlot s t hrun hreset h).1, fun hs ht => ?_⟩
  · obtain ⟨hcyc, -⟩ | ⟨i, hsel, hexec⟩ := step_selects hreset h
    · simp [hcyc, hs] at ht
    · obtain rfl | ⟨rfl, hbusy, hswap⟩ := exec_sets_flag (s := s.endTurn) hexec hs ht
      · exact .inl (hsel.access rfl)
      · exact .inr ⟨hsel.turn_of_encdone, hbusy, hswap⟩
  · obtain ⟨-, henc⟩ | ⟨i, hsel, hexec⟩ := step_selects hreset h
    · simp [henc, hs] at ht
    · obtain rfl | rfl := exec_starts_run (s := s.endTurn) hexec hs ht
      · obtain ⟨hturn, b, hitem, hop⟩ := hsel.access rfl
        exact ⟨hturn, b, hitem, .inl hop⟩
      · obtain ⟨hturn, b, hitem, hop⟩ := hsel.access rfl
        exact ⟨hturn, b, hitem, .inr hop⟩

end Sys2Proof.Machine
end
